-- ==== Sys2Proof/Word.lean ====
section
/-! DEFINITION. The word types of the block: what the spec treats as bits. -/

namespace Sys2Proof

/-- A command word, an operand byte, a response byte, a header register, a buffer entry. -/
abbrev Byte := BitVec 8

/-- A 4-bit half of a byte, the codec's input (rule R112); also the `OP` and `ARG` fields (rule R81). -/
abbrev Nibble := BitVec 4

/-- A 6-bit line symbol (rule R95). -/
abbrev Symbol := BitVec 6

/-- The 12-bit receive window (rule R32). -/
abbrev Window := BitVec 12

/-- A CRC value (rule R131). -/
abbrev Crc := BitVec 16

/-- A tick counter value, taken modulo 2^32 (rule R39). -/
abbrev Ticks := BitVec 32

end Sys2Proof
end

