-- ==== Sys2Proof/Machine/Codec.lean ====
section
/-! DEFINITION. The 4b6b symbol codec (rules R95, R110 to R114): pure functions. -/

namespace Sys2Proof.Machine

/-- The table `SYM` of rule R95. -/
def symbolTable : List Symbol :=
  [0x0D, 0x0E, 0x13, 0x15, 0x16, 0x19, 0x1A, 0x1C, 0x23, 0x25, 0x26, 0x29, 0x2A, 0x2C, 0x32, 0x34]

/-- `ENCODE_NIBBLE` (rule R112). -/
def encodeNibble (n : Nibble) : Symbol := symbolTable.getD n.toNat 0

/-- The high half of a byte. -/
def highNibble (b : Byte) : Nibble := b.extractLsb' 4 4

/-- The low half of a byte. -/
def lowNibble (b : Byte) : Nibble := b.extractLsb' 0 4

/-- `ENCODE_BYTE` (rule R111): the high nibble's symbol, then the low nibble's. -/
def encodeByte (b : Byte) : Symbol × Symbol := (encodeNibble (highNibble b), encodeNibble (lowNibble b))

/-- The position of the first entry equal to `s`. -/
def symbolIndex : List Symbol → Symbol → Option Nat
  | [], _ => none
  | t :: ts, s => if t = s then some 0 else (symbolIndex ts s).map (· + 1)

/-- `DECODE_SYMBOL` (rule R113); `none` is `InvalidSymbol`. -/
def decodeSymbol (s : Symbol) : Option Nibble := (symbolIndex symbolTable s).map (BitVec.ofNat 4)

/-- `DECODE_PAIR` (rule R114): the symbol received first stands in bits [11:6]. -/
def decodePair (w : Window) : Option Byte :=
  match decodeSymbol (w.extractLsb' 6 6), decodeSymbol (w.extractLsb' 0 6) with
  | some hi, some lo => some (hi ++ lo)
  | _, _ => none

end Sys2Proof.Machine
end

