-- ==== Sys2Proof/Machine/Constants.lean ====
section
/-! DEFINITION. The fixed constants of rule R12. -/

namespace Sys2Proof.Machine

/-- `RX_RAMP_LEN`. -/
def rampLen : Nat := 160

/-- `RX_RAMP_TRANSITION`. -/
def rampTransition : Nat := 80

/-- `RX_RAMP_ADJUST`. -/
def rampAdjust : Nat := 9

/-- `RX_RAMP_INC`, floor division (D12). -/
def rampBase (tpb : Nat) : Nat := rampLen / tpb

/-- `RX_RAMP_INC_RETARD`. -/
def rampRetard (tpb : Nat) : Nat := rampBase tpb - rampAdjust

/-- `RX_RAMP_INC_ADVANCE`. -/
def rampAdvance (tpb : Nat) : Nat := rampBase tpb + rampAdjust

/-- `START_SYMBOL`. -/
def startSymbol : Window := 0xB38

/-- The `PREAMBLE_LEN` = 8 entries of 0x2A (rule R97). -/
def preambleEntries : List Byte := List.replicate 8 0x2A

/-- The two start-symbol entries (rule R98). -/
def startEntries : List Byte := [0x2C, 0x38]

/-- `MAX_MSG_LEN`. -/
def maxMsgLen : Nat := 60

/-- `RX_BUF_CAP`. -/
def rxBufCap : Nat := 67

/-- `MIN_FRAME_LEN`. -/
def minFrameLen : Nat := 7

/-- `TX_BUF_CAP`. -/
def txBufCap : Nat := 150

/-- The reflected CRC polynomial. -/
def crcPoly : Crc := 0x8408

/-- The CRC seed. -/
def crcSeed : Crc := 0xFFFF

/-- The CRC good residue. -/
def crcResidue : Crc := 0xF0B8

end Sys2Proof.Machine
end

