-- ==== Sys2Proof/Machine/Crc.lean ====
section
/-! DEFINITION. The CRC-16/CCITT engine (rules R130 to R134): pure functions. -/

namespace Sys2Proof.Machine

/-- One of the 8 shifts of `CRC_UPDATE` (rule R131). -/
def crcShift (c : Crc) : Crc :=
  if c.getLsbD 0 then (c >>> 1) ^^^ crcPoly else c >>> 1

/-- `count` shifts. -/
def crcShifts : Nat → Crc → Crc
  | 0, c => c
  | count + 1, c => crcShifts count (crcShift c)

/-- `CRC_UPDATE` (rule R131). -/
def crcUpdate (c : Crc) (b : Byte) : Crc := crcShifts 8 (c ^^^ b.setWidth 16)

/-- `CRC16` (rule R132). -/
def crc16 (bytes : List Byte) : Crc := bytes.foldl crcUpdate crcSeed

/-- `FCS` (rule R133). -/
def fcs (bytes : List Byte) : Crc := ~~~ crc16 bytes

/-- `FCS_LO`, sent first (rule R133). -/
def fcsLow (bytes : List Byte) : Byte := (fcs bytes).extractLsb' 0 8

/-- `FCS_HI`, sent second (rule R133). -/
def fcsHigh (bytes : List Byte) : Byte := (fcs bytes).extractLsb' 8 8

/-- `CRC_CHECK` (rule R134). -/
def crcCheck (frame : List Byte) : Bool := crc16 frame = crcResidue

end Sys2Proof.Machine
end

