-- ==== Sys2Proof/Config.lean ====
section
/-! DEFINITION. The configuration parameters of rule R11, their legal ranges and defaults, and the free
values of the model: the level of the RX input line, and what a buffer entry nothing has written holds. -/

namespace Sys2Proof

/-- `CAD_BUSY_SOURCE`, what counts as channel activity (rules R11, R253). The spec leaves the choice
open as a parameter (D21); both values are modelled. -/
inductive BusySource where
  | rxHigh
  | syncActive
  deriving DecidableEq, Repr

/-- The inputs of construction (rule R310). `rxGain` and `seed` are the two inputs without a meaning
(rule R10): a configuration that supplies either is refused. -/
structure ResetArgs where
  tpb : Nat
  cadTimeout : Nat := 8000
  cadBusySource : BusySource := .rxHigh
  rxGain : Option Nat := none
  seed : Option Nat := none
  deriving DecidableEq, Repr

/-- The legal values of `TPB` and `CAD_TIMEOUT` (rule R11). -/
abbrev Config.Legal (tpb cadTimeout : Nat) : Prop :=
  2 ≤ tpb ∧ tpb ≤ 16 ∧ 1 ≤ cadTimeout ∧ cadTimeout < 2 ^ 32

/-- The default configuration (rule R11: TPB 8, CAD_TIMEOUT 8000, CAD_BUSY_SOURCE RxHigh). -/
def Config.default : ResetArgs := { tpb := 8 }

/-- FREE VALUE (log 3). The level of the RX input line at the n-th sampled tick, where the environment's
list of levels has run out. Rule R71: the level is chosen by the environment and the block assumes
nothing about it. It has no body, so no proof can see a level. -/
opaque Config.freeRxLevel : Nat → Bool

/-- FREE VALUE (log 4). What entry n of `TXB` holds while nothing has written it: rules R23 and R310 leave
it unspecified, item U3 of 93_implementation_defined.md says any value. It has no body. -/
opaque Config.freeTxb : Nat → Byte

/-- FREE VALUE (log 4). What entry n of `RXB` holds while nothing has written it (rules R35, R310, U3). It
has no body. -/
opaque Config.freeRxb : Nat → Byte

end Sys2Proof
end

