-- ==== Sys2Proof/Syntax.lean ====
section
/-! DEFINITION. The host operations: one constructor per row of spec/opcode_table.json. -/

namespace Sys2Proof

/-- The operating modes, in the order of rule R87. -/
inductive Mode where
  | sleep
  | idle
  | tx
  | rx
  | cad
  deriving DecidableEq, Repr

/-- The host operations (rule R84) with their operands (rule R82). `LEN` of `SEND` is the length of
`payload`; the mode code of `SET_MODE` is already a mode, since codes 5..15 decode to Illegal (rule R88). -/
inductive Instr where
  | tick
  | send (payload : List Byte)
  | setHeader (dest src ident flags : Byte)
  | available
  | receive
  | setMode (m : Mode)
  | startCad
  | isChannelBusy
  | txDone
  | getMode
  deriving DecidableEq, Repr

end Sys2Proof
end

