-- ==== Sys2Proof/Machine/State.lean ====
section
/-! DEFINITION. The state of the block (the table of rule R21), the model's view of what stands at its
boundary (`Env`), the reasons a step can stop, and the state after reset (rule R310). -/

namespace Sys2Proof.Machine

/-- One of the block's byte arrays, as the cells something has written, addresses strictly rising. An
unlisted entry holds a free value (`Config.freeTxb`, `Config.freeRxb`): rule R310 leaves the contents
unspecified, any value (U3; log 4). -/
abbrev Memory := List Host.Cell

/-- The status codes of rule R86. -/
inductive Status where
  | ok
  | tooLong
  | busy
  | rejected
  | illegal
  | empty
  deriving DecidableEq, Repr

/-- Why the frame machine discarded a frame (rule R282). -/
inductive AbortReason where
  | invalidSymbol
  | badLength
  | badCrc
  deriving DecidableEq, Repr

/-- The events a model may record for testing (rule R285). -/
inductive GhostEvent where
  | aborted (reason : AbortReason)
  | sync
  | good
  deriving DecidableEq, Repr

/-- One entry of a run's observation (rule R334): the response bytes of a transaction, and after a
`TICK` the value of TX_OUT. -/
structure Observation where
  response : List Byte
  txOut : Option Bool
  deriving DecidableEq, Repr

/-- The MODEL'S OWN record of the block's boundary (rule R297), no state of the block. -/
structure Env where
  /-- Bytes the host has offered and the block has not taken, first to be taken first (log 1). -/
  pending : List Byte
  /-- Levels of the RX line at the coming sampled ticks, first to be sampled first (log 3). -/
  rxDraws : List Bool
  /-- How many samples have been taken: the argument of the free level (log 3). -/
  drawCount : Nat
  /-- The run's observation, oldest first (rule R334, log 8). -/
  observed : List Observation
  /-- The ghost events with their tick counts, oldest first (rule R285, log 9). -/
  ghost : List (Ticks × GhostEvent)
  deriving DecidableEq, Repr

/-- The state. All fields but `env` are the fields of rule R21, in its order. A level or a flag of one bit
is a `Bool` (true is 1). A count whose arithmetic the rules write without `mod` is a natural number:
rule R14 makes every such sum exact, and the width of rule R21 is a bound on it (log 6). -/
@[ext]
structure State where
  /-- Rule R22. -/
  mode : Mode
  /-- `TXB`, rule R23. -/
  txb : Memory
  /-- Rule R24. -/
  txLen : Nat
  /-- Rule R25. -/
  txBitIndex : Nat
  /-- Rule R26. -/
  txSample : Nat
  /-- Rule R27; the TX_OUT line. -/
  txLevel : Bool
  /-- Rule R28. -/
  hdrTo : Byte
  /-- Rule R28. -/
  hdrFrom : Byte
  /-- Rule R28. -/
  hdrId : Byte
  /-- Rule R28. -/
  hdrFlags : Byte
  /-- Rule R29. -/
  rxRamp : Nat
  /-- Rule R30. -/
  rxIntegrator : Nat
  /-- Rule R31. -/
  rxLastSample : Bool
  /-- Rule R32. -/
  rxWindow : Window
  /-- Rule R33. -/
  rxActive : Bool
  /-- Rule R34. -/
  rxBitCount : Nat
  /-- `RXB`, rule R35. -/
  rxb : Memory
  /-- Rule R36. -/
  rxBufLen : Nat
  /-- Rule R37. -/
  rxCount : Nat
  /-- Rule R38. -/
  rxGood : Bool
  /-- Rule R39. -/
  tickCount : Ticks
  /-- Rule R40. -/
  lastBusy : Ticks
  /-- `TPB`, rules R11, R41. -/
  tpb : Nat
  /-- `CAD_TIMEOUT`, rules R11, R41. -/
  cadTimeout : Nat
  /-- `CAD_BUSY_SOURCE`, rules R11, R41. -/
  cadBusySource : BusySource
  /-- The boundary; the model's own. -/
  env : Env
  deriving DecidableEq, Repr

/-- Why a step can fault: there is no such reason (rule R292: "No operation puts the block in a fault
state"), so the type has no constructor. -/
inductive Fault where
  deriving DecidableEq, Repr

/-- What the model gives no run. -/
inductive Refusal where
  /-- Raised only by an arm of `exec` whose instruction has no meaning yet. Safe. No arm raises it. -/
  | notModelled (mnemonic : String)
  /-- Raised by `construct` for `TPB` or `CAD_TIMEOUT` outside its legal range (rules R11, R292). Safe. -/
  | illegalConfiguration
  /-- Raised by `construct` where `rx_gain` or `seed` is supplied (rules R10, R292). Safe. -/
  | inputWithoutMeaning
  deriving DecidableEq, Repr

/-- The boundary before any transaction: nothing offered, nothing observed (logs 1, 3, 8, 9). -/
def Env.empty : Env :=
  { pending := [], rxDraws := [], drawCount := 0, observed := [], ghost := [] }

/-- The machine right after reset (rule R310) with the default configuration of rule R11 (log 7). -/
def State.reset : State where
  mode := .idle
  txb := []
  txLen := 0
  txBitIndex := 0
  txSample := 0
  txLevel := false
  hdrTo := 0xFF
  hdrFrom := 0xFF
  hdrId := 0x00
  hdrFlags := 0x00
  rxRamp := 0
  rxIntegrator := 0
  rxLastSample := false
  rxWindow := 0x000
  rxActive := false
  rxBitCount := 0
  rxb := []
  rxBufLen := 0
  rxCount := 0
  rxGood := false
  tickCount := 0
  lastBusy := 0
  tpb := 8
  cadTimeout := 8000
  cadBusySource := .rxHigh
  env := Env.empty

end Sys2Proof.Machine
end

