-- ==== Sys2Proof/Machine/Flags.lean ====
section
/-! DEFINITION. The conditions the rules test. The block has no flags register (rule R43): its flag-like
state is `rx_active` and `rx_good`, and these are the conditions computed from the state. -/

namespace Sys2Proof.Machine

/-- The modes in which the PLL runs (rules R180, R246). -/
def listening (m : Mode) : Bool :=
  match m with
  | .rx => true
  | .cad => true
  | .sleep => false
  | .idle => false
  | .tx => false

/-- `(tick_count - last_busy) mod 2^32` (rules R254, R257, R258). -/
def quietTicks (s : State) : Nat := (s.tickCount - s.lastBusy).toNat

/-- The quiet interval has reached `CAD_TIMEOUT` (rule R254; its negation is the test of rule R258). -/
def channelQuiet (s : State) : Bool := decide (s.cadTimeout ≤ quietTicks s)

/-- The answer of `IS_CHANNEL_BUSY` (rule R258). -/
def channelBusy (s : State) : Bool :=
  match s.mode with
  | .tx => true
  | .rx => !channelQuiet s
  | .cad => !channelQuiet s
  | .sleep => false
  | .idle => false

/-- Whether a tick with RX level `level` is a busy event (rule R253). -/
def busyTick (level : Bool) (s : State) : Bool :=
  match s.cadBusySource with
  | .rxHigh => level
  | .syncActive => s.rxActive

/-- The four moves `SET_MODE` makes by `ENTER` alone (rule R248). -/
def plainMove (a b : Mode) : Bool :=
  match a, b with
  | .sleep, .idle => true
  | .idle, .sleep => true
  | .idle, .rx => true
  | .rx, .idle => true
  | _, _ => false

/-- The frame machine's states as rule R210 reads them from the flags. `Verify` is transient. -/
inductive FrameState where
  | waitStart
  | readLength
  | readBody
  | deliver
  deriving DecidableEq, Repr

/-- Rule R210. -/
def frameState (s : State) : FrameState :=
  if s.rxGood then .deliver
  else if s.rxActive then (if s.rxBufLen = 0 then .readLength else .readBody)
  else .waitStart

end Sys2Proof.Machine
end

