-- ==== Sys2Proof/WellFormed.lean ====
section
/-! DEFINITION. Which terms of `Instr` have an encoding. -/

namespace Sys2Proof

/-- `LEN` is one unsigned byte (rule R82), so a `SEND` carries at most 255 payload bytes. Lengths 61..255
are well formed: the operation refuses them with TooLong (rule R156). Every other term is well formed. -/
def Instr.wellFormed : Instr → Bool
  | .tick => true
  | .send payload => decide (payload.length ≤ 255)
  | .setHeader _ _ _ _ => true
  | .available => true
  | .receive => true
  | .setMode _ => true
  | .startCad => true
  | .isChannelBusy => true
  | .txDone => true
  | .getMode => true

end Sys2Proof
end

