-- ==== Sys2Proof/Decode.lean ====
section
/-! DEFINITION. The host command encoding: decoding a stream of bytes (rules R80 to R91), total on any
bytes and rejecting by name, and the encoder written from the same tables. -/

namespace Sys2Proof

/-- The mode code (rule R87). -/
def modeCode : Mode → Nibble
  | .sleep => 0
  | .idle => 1
  | .tx => 2
  | .rx => 3
  | .cad => 4

/-- The mode an `ARG` names; codes 5..15 are reserved (rules R87, R88, R91). -/
def modeOfArg (arg : Nibble) : Option Mode :=
  match arg.toNat with
  | 0 => some .sleep
  | 1 => some .idle
  | 2 => some .tx
  | 3 => some .rx
  | 4 => some .cad
  | _ => none

/-- `OP`, bits [7:4] of the command word (rule R81). -/
def opField (c : Byte) : Nibble := c.extractLsb' 4 4

/-- `ARG`, bits [3:0] of the command word (rule R81). -/
def argField (c : Byte) : Nibble := c.extractLsb' 0 4

/-- The command word with the given fields (rule R81). -/
def commandWord (op arg : Nibble) : Byte := op ++ arg

/-- Why a command word is Illegal (rule R89). -/
inductive IllegalWord where
  /-- `OP` is 0x0 or 0xB..0xF. -/
  | reservedOpcode (op : Nibble)
  /-- `ARG` is not 0 and the operation is not `SET_MODE`. -/
  | argNotZero (op arg : Nibble)
  /-- `SET_MODE` with `ARG` 5..15. -/
  | reservedMode (arg : Nibble)
  deriving DecidableEq, Repr

/-- What the front of a byte stream decodes to, with the bytes after it. -/
inductive Decoded where
  | instr (i : Instr) (rest : List Byte)
  | illegal (why : IllegalWord) (rest : List Byte)
  /-- The stream ends before the transaction does. -/
  | incomplete
  deriving DecidableEq, Repr

/-- Format `P` (rule R82): `LEN`, then `LEN` payload bytes, all of them taken even when `LEN` > 60. -/
def decodePayload : List Byte → Decoded
  | [] => .incomplete
  | len :: bytes =>
    if bytes.length < len.toNat then .incomplete
    else .instr (.send (bytes.take len.toNat)) (bytes.drop len.toNat)

/-- Format `H` (rule R82): `TO`, `FROM`, `ID`, `FLAGS`. -/
def decodeHeader : List Byte → Decoded
  | dest :: src :: ident :: flags :: rest => .instr (.setHeader dest src ident flags) rest
  | _ => .incomplete

/-- The opcodes whose `ARG` must be 0 (rule R85). -/
def plainOpcode (op : Nibble) : Bool :=
  op = 0x1 || op = 0x2 || op = 0x3 || op = 0x4 || op = 0x5 || op = 0x7 || op = 0x8 || op = 0x9 || op = 0xA

/-- The operation a plain opcode names, with its operands taken from the stream (rules R82, R84). -/
def decodePlain (op : Nibble) (rest : List Byte) : Decoded :=
  if op = 0x1 then .instr .tick rest
  else if op = 0x2 then decodePayload rest
  else if op = 0x3 then decodeHeader rest
  else if op = 0x4 then .instr .available rest
  else if op = 0x5 then .instr .receive rest
  else if op = 0x7 then .instr .startCad rest
  else if op = 0x8 then .instr .isChannelBusy rest
  else if op = 0x9 then .instr .txDone rest
  else .instr .getMode rest

/-- Rule R85, total on every byte. An Illegal word takes no operand bytes (rule R89). -/
def decode : List Byte → Decoded
  | [] => .incomplete
  | c :: rest =>
    if opField c = 0x6 then
      match modeOfArg (argField c) with
      | some m => .instr (.setMode m) rest
      | none => .illegal (.reservedMode (argField c)) rest
    else if plainOpcode (opField c) then
      if argField c = 0 then decodePlain (opField c) rest
      else .illegal (.argNotZero (opField c) (argField c)) rest
    else .illegal (.reservedOpcode (opField c)) rest

/-- The bytes of a transaction (rules R81, R82, R84). For a well-formed instruction `LEN` holds the
payload's length. -/
def encode : Instr → List Byte
  | .tick => [commandWord 0x1 0]
  | .send payload => commandWord 0x2 0 :: BitVec.ofNat 8 payload.length :: payload
  | .setHeader dest src ident flags => [commandWord 0x3 0, dest, src, ident, flags]
  | .available => [commandWord 0x4 0]
  | .receive => [commandWord 0x5 0]
  | .setMode m => [commandWord 0x6 (modeCode m)]
  | .startCad => [commandWord 0x7 0]
  | .isChannelBusy => [commandWord 0x8 0]
  | .txDone => [commandWord 0x9 0]
  | .getMode => [commandWord 0xA 0]

/-- The longest transaction: `SEND` with `LEN` = 255 (rule R90). -/
def maxTransactionBytes : Nat := 257

/-- `count` bytes of `w`, the least significant first: byte k of an instruction is bits 8k+7..8k of the
table's numbering. -/
def bytesOfTableWord : Nat → Nat → List Byte
  | 0, _ => []
  | count + 1, w => BitVec.ofNat 8 w :: bytesOfTableWord count (w / 256)

/-- The bytes of the instruction whose low `nbits` bits are `w` and whose other bits are 0, as long as
the longest transaction. -/
def tableWordBytes (nbits w : Nat) : List Byte :=
  bytesOfTableWord maxTransactionBytes (w % 2 ^ nbits)

/-- The instruction the decoder reads from a table word; `none` where it rejects. -/
def decodeTableWord (nbits w : Nat) : Option Instr :=
  match decode (tableWordBytes nbits w) with
  | .instr i _ => some i
  | .illegal _ _ => none
  | .incomplete => none

end Sys2Proof
end

