-- ==== Sys2Proof/Machine/Operands.lean ====
section
/-! DEFINITION. What crosses the block's boundary in one transaction: the RX level a `TICK` draws, the
response it answers (rules R83, R86), and the views of a frame (rule R232). The operand bytes themselves
are assembled by `Sys2Proof.decode` (rule R91). -/

namespace Sys2Proof.Machine

/-- The status codes (rule R86). -/
def statusCode : Status → Byte
  | .ok => 0x00
  | .tooLong => 0x01
  | .busy => 0x02
  | .rejected => 0x03
  | .illegal => 0x04
  | .empty => 0x05

/-- The data byte of a yes or no answer (rules R165, R230, R258). -/
def boolByte (b : Bool) : Byte := if b then 1 else 0

/-- The data byte of `GET_MODE`: the mode code, zero-extended (rules R87, R262). -/
def modeByte (m : Mode) : Byte := (modeCode m).setWidth 8

/-- The response bytes (rule R83): the status code, then the data. -/
def responseBytes (status : Status) (data : List Byte) : List Byte := statusCode status :: data

/-- `RX_IN`, the level this tick samples (rule R71): the environment's next level, and where its list has
run out a free value (log 3). -/
def rxIn (s : State) : Bool :=
  match s.env.rxDraws with
  | level :: _ => level
  | [] => Config.freeRxLevel s.env.drawCount

/-- The state after the RX line has been sampled once (rule R71). -/
def consumeRx (s : State) : State :=
  { s with env := { s.env with rxDraws := s.env.rxDraws.tail, drawCount := s.env.drawCount + 1 } }

/-- The state with other bytes waiting to be taken. -/
def setPending (s : State) (bytes : List Byte) : State :=
  { s with env := { s.env with pending := bytes } }

/-- Answering a transaction (rules R80, R83, R334): the response, and TX_OUT for a `TICK`, join the
observation. No state of the block changes. -/
def respond (s : State) (status : Status) (data : List Byte) (txOut : Option Bool) : State :=
  { s with env := { s.env with observed := s.env.observed ++ [⟨responseBytes status data, txOut⟩] } }

/-- Recording a ghost event with the tick count (rules R220, R285); no rule reads it. -/
def recordGhost (s : State) (event : GhostEvent) : State :=
  { s with env := { s.env with ghost := s.env.ghost ++ [(s.tickCount, event)] } }

/-- The header view of a frame: F[1..4] (rule R232). -/
def frameHeader (frame : List Byte) : List Byte := (frame.drop 1).take 4

/-- The payload view of a frame of length N: F[5..N-3], N - 7 bytes (rule R232). -/
def framePayload (frame : List Byte) : List Byte := (frame.drop 5).take (frame.length - minFrameLen)

/-- The CRC view of a frame of length N: F[N-2], F[N-1] (rule R232). -/
def frameCrc (frame : List Byte) : List Byte := frame.drop (frame.length - 2)

end Sys2Proof.Machine
end

