-- ==== Sys2Proof/Machine/Ops.lean ====
section
/-! DEFINITION. The named operations over the two byte arrays and over the state that several
instructions share: reading and writing `TXB` and `RXB`, the PLL reset, entering a mode, and `abort`. The
block has no trap (rules R280, R289); `abort` is the nearest thing to taking an exception, and there is
nothing to return from (rule R290). -/

namespace Sys2Proof.Machine

/-- The entry at an index; `none` where nothing has written it. -/
def Memory.read : Memory → Nat → Option Byte
  | [], _ => none
  | (b, v) :: m, a => if b = a then some v else Memory.read m a

/-- Writing one entry, keeping the addresses strictly rising. -/
def Memory.write : Memory → Nat → Byte → Memory
  | [], a, v => [(a, v)]
  | (b, w) :: m, a, v =>
    if a < b then (a, v) :: (b, w) :: m
    else if a = b then (a, v) :: m
    else (b, w) :: Memory.write m a v

/-- Writing entries one after the other from an index on. -/
def Memory.writeList : Memory → Nat → List Byte → Memory
  | m, _, [] => m
  | m, a, v :: vs => Memory.writeList (Memory.write m a v) (a + 1) vs

/-- What an entry holds: what was last written to it, or its free value (rules R15, R310, U3; log 4). -/
def Memory.entry (m : Memory) (free : Nat → Byte) (a : Nat) : Byte := (m.read a).getD (free a)

/-- The first `count` entries, in order. -/
def Memory.entries (m : Memory) (free : Nat → Byte) (count : Nat) : List Byte :=
  (List.range count).map (m.entry free)

/-- The canonical form: addresses strictly rising. Every written entry stays listed, since no byte can be
compared with a free value (log 4). -/
def Memory.wf : Memory → Bool
  | [] => true
  | [_] => true
  | (a, _) :: (b, w) :: m => decide (a < b) && Memory.wf ((b, w) :: m)

/-- `TXB[index]` (rules R15, R23, R60). -/
def readTxb (s : State) (index : Nat) : Byte := s.txb.entry Config.freeTxb index

/-- `RXB[index] <- v` (rules R15, R35, R60). There is no entry at 67 or above to write, and no run tries
(rule R218; log 5). -/
def writeRxb (s : State) (index : Nat) (v : Byte) : State :=
  if index < rxBufCap then { s with rxb := s.rxb.write index v } else s

/-- `RXB[0..count)` (rules R15, R35, R60). -/
def readRxb (s : State) (count : Nat) : List Byte := s.rxb.entries Config.freeRxb count

/-- `abort(reason)` (rule R220): discard the partial frame. The PLL and `rx_good` are not touched. -/
def abort (s : State) (reason : AbortReason) : State :=
  recordGhost { s with rxActive := false, rxBufLen := 0, rxBitCount := 0, rxCount := 0 } (.aborted reason)

/-- `PLL_RESET()` (rule R190): a delivered frame survives. -/
def pllReset (s : State) : State :=
  { s with
    rxRamp := 0
    rxIntegrator := 0
    rxLastSample := false
    rxWindow := 0
    rxActive := false
    rxBitCount := 0
    rxBufLen := if s.rxGood then s.rxBufLen else 0
    rxCount := if s.rxGood then s.rxCount else 0 }

/-- The PLL reset of `ENTER` (rule R246): only where listening begins after a mode that does not listen. -/
def enterReset (m : Mode) (s : State) : State :=
  if listening m && !listening s.mode then pllReset s else s

/-- `ENTER(m)` (rule R246). -/
def enter (m : Mode) (s : State) : State :=
  { enterReset m s with
    lastBusy := if m = .cad then s.tickCount else s.lastBusy
    mode := m }

/-- What `START_CAD` does (rule R249), for both instructions that ask for it (rule R248). -/
def startCad (s : State) : Status × State :=
  if s.mode = .cad then (.ok, s)
  else if s.mode = .rx then (.ok, enter .cad s)
  else (.rejected, s)

/-- What `SET_MODE m` does (rule R248), the tests in the order of rule R283. -/
def setMode (m : Mode) (s : State) : Status × State :=
  if s.mode = .tx then (.rejected, s)
  else if m = .tx then (.rejected, s)
  else if m = s.mode then (.ok, s)
  else if m = .cad then startCad s
  else if plainMove s.mode m then (.ok, enter m s)
  else (.rejected, s)

/-- Answering with a status only, response `S` (rule R83). -/
def answer (result : Status × State) : State := respond result.2 result.1 [] none

/-- Answering an Illegal command word (rule R89). -/
def answerIllegal (s : State) : State := respond s .illegal [] none

end Sys2Proof.Machine
end

