-- ==== Sys2Proof/Machine/FrameFsm.lean ====
section
/-! DEFINITION. The frame state machine (rules R210 to R233) and the meanings of `AVAILABLE` and
`RECEIVE`. -/

namespace Sys2Proof.Machine

/-- `SYNC_TEST()` (rule R212). -/
def syncTest (s : State) : State :=
  if s.rxWindow = startSymbol then
    recordGhost { s with rxActive := true, rxBitCount := 0, rxBufLen := 0, rxCount := 0 } .sync
  else s

/-- `VERIFY()` (rule R225), for a frame of `rx_count` bytes. -/
def verify (s : State) : State :=
  if crcCheck (readRxb s s.rxCount) then recordGhost { s with rxGood := true, rxActive := false } .good
  else abort s .badCrc

/-- The byte enters `RXB` and `rx_buf_len` counts it (rule R218). -/
def store (s : State) (v : Byte) : State := { writeRxb s s.rxBufLen v with rxBufLen := s.rxBufLen + 1 }

/-- `APPEND(v)` (rule R218). -/
def append (s : State) (v : Byte) : State :=
  if s.rxBufLen + 1 = s.rxCount then verify (store s v) else store s v

/-- The declared lengths the gate lets pass (rules R101, R217). -/
def lengthPasses (v : Byte) : Bool := decide (minFrameLen ≤ v.toNat) && decide (v.toNat ≤ rxBufCap)

/-- A decoded byte: the first one of a frame is its length (rules R214, R217). -/
def takeByte (s : State) (v : Byte) : State :=
  if s.rxBufLen = 0 then
    if lengthPasses v then append { s with rxCount := v.toNat } v
    else abort s .badLength
  else append s v

/-- `BYTE_STEP()` (rule R214). -/
def byteStep (s : State) : State :=
  if s.rxBitCount + 1 = 12 then
    match decodePair s.rxWindow with
    | none => abort { s with rxBitCount := 0 } .invalidSymbol
    | some v => takeByte { s with rxBitCount := 0 } v
  else { s with rxBitCount := s.rxBitCount + 1 }

/-- `FRAME_STEP()` (rule R211); a delivered frame is held (rule R226). -/
def frameStep (s : State) : State :=
  if s.rxActive then byteStep s
  else if s.rxGood then s
  else syncTest s

/-- `AVAILABLE` (rule R230). -/
def execAvailable (s : State) : Host.Outcome State Fault Refusal :=
  .next (respond s .ok [boolByte s.rxGood] none)

/-- The delivered frame has been drained (rule R231). -/
def clearDelivered (s : State) : State := { s with rxGood := false, rxBufLen := 0, rxCount := 0 }

/-- `RECEIVE` (rule R231). -/
def execReceive (s : State) : Host.Outcome State Fault Refusal :=
  if s.rxGood then .next (respond (clearDelivered s) .ok (readRxb s s.rxCount) none)
  else .next (respond s .empty [] none)

end Sys2Proof.Machine
end

