-- ==== Sys2Proof/Machine/Pll.lean ====
section
/-! DEFINITION. The RX PLL demodulator (rules R180 to R192). -/

namespace Sys2Proof.Machine

/-- `RAMP_INC(t, r)` (rule R184; the direction is conflict C1's resolution). -/
def rampInc (tpb : Nat) (transition : Bool) (ramp : Nat) : Nat :=
  if transition then (if ramp < rampTransition then rampRetard tpb else rampAdvance tpb)
  else rampBase tpb

/-- `SLICE(i)` (rule R187). -/
def slice (tpb integrator : Nat) : Bool := decide (tpb ≤ 2 * integrator)

/-- The window shift (rule R188): the newest bit enters bit 0, bit 11 is discarded. -/
def shiftWindow (w : Window) (bit : Bool) : Window := (w <<< 1) ||| (if bit then 1 else 0)

/-- The ramp sum before the wrap test (rules R183, R184, R186). -/
def rampSum (s : State) (level : Bool) : Nat :=
  s.rxRamp + rampInc s.tpb (level != s.rxLastSample) s.rxRamp

/-- The integrator with the current sample in it (rule R185). -/
def integrated (s : State) (level : Bool) : Nat := s.rxIntegrator + level.toNat

/-- The part of a bit tick before `FRAME_STEP` (rule R186): the bit enters the window, the integrator is
cleared, the ramp wraps. -/
def bitOut (s : State) (level : Bool) : State :=
  { s with
    rxLastSample := level
    rxWindow := shiftWindow s.rxWindow (slice s.tpb (integrated s level))
    rxIntegrator := 0
    rxRamp := rampSum s level - rampLen }

/-- A tick within a bit window (rule R186). -/
def withinBit (s : State) (level : Bool) : State :=
  { s with
    rxLastSample := level
    rxIntegrator := integrated s level
    rxRamp := rampSum s level }

/-- `PLL_STEP(s)` (rule R186). -/
def pllStep (level : Bool) (s : State) : State :=
  if rampLen ≤ rampSum s level then frameStep (bitOut s level)
  else withinBit s level

end Sys2Proof.Machine
end

