-- ==== Sys2Proof/Machine/Tx.lean ====
section
/-! DEFINITION. The TX bit shift register (rules R153 to R166): assembling a frame, the pump, and the
meanings of `SET_HEADER`, `SEND` and `TX_DONE`. -/

namespace Sys2Proof.Machine

/-- The header bytes in frame order (rule R67). -/
def headerBytes (s : State) : List Byte := [s.hdrTo, s.hdrFrom, s.hdrId, s.hdrFlags]

/-- The data the CRC covers: length, header, payload (rules R101, R156). -/
def frameData (s : State) (payload : List Byte) : List Byte :=
  BitVec.ofNat 8 (minFrameLen + payload.length) :: (headerBytes s ++ payload)

/-- The bytes of a frame: the data, then the CRC, low byte first (rules R67, R156). -/
def frameBytes (s : State) (payload : List Byte) : List Byte :=
  frameData s payload ++ [fcsLow (frameData s payload), fcsHigh (frameData s payload)]

/-- The two buffer entries of a frame byte; bits [7:6] of an entry are 0 (rules R23, R111). -/
def byteEntries (b : Byte) : List Byte := [(encodeByte b).1.setWidth 8, (encodeByte b).2.setWidth 8]

/-- The entries of a transmission (rule R99). -/
def txEntries (s : State) (payload : List Byte) : List Byte :=
  preambleEntries ++ startEntries ++ (frameBytes s payload).flatMap byteEntries

/-- `SEND` once it is accepted (rule R156): the frame is assembled and the pump starts. -/
def startSend (payload : List Byte) (s : State) : State :=
  { s with
    txb := s.txb.writeList 0 (txEntries s payload)
    txLen := 10 + 2 * (minFrameLen + payload.length)
    txBitIndex := 0
    txSample := 0
    mode := .tx }

/-- Bit k of the transmission is bit 5 - (k mod 6) of entry k div 6 (rule R25). -/
def entryBit (entry : Byte) (k : Nat) : Bool := entry.getLsbD (5 - k % 6)

/-- The drain (rules R160, R251). -/
def drain (s : State) : State := enter .rx { s with txLevel := false, txLen := 0, txBitIndex := 0 }

/-- One tick of a bit period has passed (rule R160). -/
def nextTxSample (s : State) : State := { s with txSample := (s.txSample + 1) % s.tpb }

/-- Putting the next bit on the line (rule R160). -/
def emitBit (s : State) : State :=
  { s with
    txLevel := entryBit (readTxb s (s.txBitIndex / 6)) s.txBitIndex
    txBitIndex := s.txBitIndex + 1 }

/-- `TX_STEP()` (rule R160). -/
def txStep (s : State) : State :=
  if s.txSample = 0 then
    if s.txBitIndex = 6 * s.txLen then drain s else nextTxSample (emitBit s)
  else nextTxSample s

/-- `SET_HEADER` (rule R153). -/
def execSetHeader (dest src ident flags : Byte) (s : State) : Host.Outcome State Fault Refusal :=
  .next (respond { s with hdrTo := dest, hdrFrom := src, hdrId := ident, hdrFlags := flags } .ok [] none)

/-- `SEND` (rule R156), Busy tested before TooLong (rule R283). -/
def execSend (payload : List Byte) (s : State) : Host.Outcome State Fault Refusal :=
  if s.mode = .tx then .next (respond s .busy [] none)
  else if maxMsgLen < payload.length then .next (respond s .tooLong [] none)
  else .next (respond (startSend payload s) .ok [] none)

/-- `TX_DONE` (rule R165). -/
def execTxDone (s : State) : Host.Outcome State Fault Refusal :=
  .next (respond s .ok [boolByte (decide (s.mode ≠ .tx))] none)

end Sys2Proof.Machine
end

