-- ==== Sys2Proof/Machine/ModeFsm.lean ====
section
/-! DEFINITION. The mode automaton (rules R240 to R262) and the meanings of `TICK`, `SET_MODE`,
`START_CAD`, `IS_CHANNEL_BUSY` and `GET_MODE`. -/

namespace Sys2Proof.Machine

/-- `BUSY_EVENT(s)` (rule R253). -/
def busyEvent (level : Bool) (s : State) : State :=
  if busyTick level s then { s with lastBusy := s.tickCount } else s

/-- `CAD_EXIT_TEST()` where the mode is Cad (rule R254); no PLL reset. -/
def cadExit (s : State) : State :=
  if s.mode = .cad then (if channelQuiet s then { s with mode := .rx } else s) else s

/-- `RX_TICK(s)` (rule R244). -/
def rxTick (level : Bool) (s : State) : State := cadExit (busyEvent level (pllStep level s))

/-- `tick_count` advances first, in every mode, modulo 2^32 (rule R241). -/
def countTick (s : State) : State := { s with tickCount := s.tickCount + 1 }

/-- The work of one `TICK`, chosen on the mode at its start (rules R241 to R244). -/
def tick (s : State) : State :=
  match s.mode with
  | .sleep => countTick s
  | .idle => countTick s
  | .tx => txStep (countTick s)
  | .rx => rxTick (rxIn s) (consumeRx (countTick s))
  | .cad => rxTick (rxIn s) (consumeRx (countTick s))

/-- Answering a `TICK`: always Ok (rule R241), and the observation takes TX_OUT after it (rule R334). -/
def answerTick (s : State) : State := respond s .ok [] (some s.txLevel)

/-- `TICK` (rule R241). -/
def execTick (s : State) : Host.Outcome State Fault Refusal :=
  .next (answerTick (tick s))

/-- `SET_MODE` (rule R248). -/
def execSetMode (m : Mode) (s : State) : Host.Outcome State Fault Refusal := .next (answer (setMode m s))

/-- `START_CAD` (rule R249). -/
def execStartCad (s : State) : Host.Outcome State Fault Refusal := .next (answer (startCad s))

/-- `IS_CHANNEL_BUSY` (rule R258). -/
def execIsChannelBusy (s : State) : Host.Outcome State Fault Refusal :=
  .next (respond s .ok [boolByte (channelBusy s)] none)

/-- `GET_MODE` (rule R262). -/
def execGetMode (s : State) : Host.Outcome State Fault Refusal :=
  .next (respond s .ok [modeByte s.mode] none)

end Sys2Proof.Machine
end

