-- ==== Sys2Proof/Machine/Dispatch.lean ====
section
/-! DEFINITION. One arm per instruction. -/

namespace Sys2Proof.Machine

/-- The meaning of every host operation (rule R84). -/
def exec (i : Instr) (s : State) : Host.Outcome State Fault Refusal :=
  match i with
  | .tick => Sys2Proof.Machine.execTick s
  | .send payload => Sys2Proof.Machine.execSend payload s
  | .setHeader dest src ident flags => Sys2Proof.Machine.execSetHeader dest src ident flags s
  | .available => Sys2Proof.Machine.execAvailable s
  | .receive => Sys2Proof.Machine.execReceive s
  | .setMode m => Sys2Proof.Machine.execSetMode m s
  | .startCad => Sys2Proof.Machine.execStartCad s
  | .isChannelBusy => Sys2Proof.Machine.execIsChannelBusy s
  | .txDone => Sys2Proof.Machine.execTxDone s
  | .getMode => Sys2Proof.Machine.execGetMode s

end Sys2Proof.Machine
end

