-- ==== Sys2Proof/Machine/Step.lean ====
section
/-! DEFINITION. One step: the block takes the next transaction the host has offered (rules R61, R80), or
waits where there is none (rule R311). -/

namespace Sys2Proof.Machine

/-- Take the transaction at the front of the pending bytes and run it (rules R61, R80, R85). An Illegal
word is answered and one byte is taken (rule R89). Where no whole transaction has been offered the block
waits and nothing changes (rule R311, log 1). -/
def step (s : State) : Host.Outcome State Fault Refusal :=
  match decode s.env.pending with
  | .instr i rest => exec i (setPending s rest)
  | .illegal _ rest => .next (answerIllegal (setPending s rest))
  | .incomplete => .next s

/-- How many bytes of `bytes` the transaction at its front takes; all of them where it is incomplete. -/
def transactionBytes (bytes : List Byte) : Nat :=
  match decode bytes with
  | .instr _ rest => bytes.length - rest.length
  | .illegal _ rest => bytes.length - rest.length
  | .incomplete => bytes.length

/-- The state in which the host offers, before anything else it has offered, the transaction whose bytes
the table word gives, the bits above `nbits` being 0. Nothing else changes (log 2). -/
def State.withFetchWord (s : State) (nbits w : Nat) : State :=
  setPending s ((tableWordBytes nbits w).take (transactionBytes (tableWordBytes nbits w)) ++ s.env.pending)

end Sys2Proof.Machine
end

