-- ==== Sys2Proof/Machine/Reset.lean ====
section
/-! DEFINITION. Construction with any configuration (rule R310). -/

namespace Sys2Proof.Machine

/-- The state after construction with a legal configuration (rule R310): only the three configuration
registers depend on it. -/
def resetWith (args : ResetArgs) : State :=
  { State.reset with
    tpb := args.tpb
    cadTimeout := args.cadTimeout
    cadBusySource := args.cadBusySource }

/-- `RESET` (rule R310): inputs without a meaning and values outside the legal range are refused, not
clamped (rules R10, R11). -/
def construct (args : ResetArgs) : Host.Outcome State Fault Refusal :=
  if args.rxGain ≠ none ∨ args.seed ≠ none then .refused .inputWithoutMeaning
  else if Config.Legal args.tpb args.cadTimeout then .next (resetWith args)
  else .refused .illegalConfiguration

end Sys2Proof.Machine
end

