-- ==== Sys2Proof/Safety.lean ====
section
/-! DEFINITION. What the statements speak of: the invariant of the block (rules R21, R44), what a
transaction adds to the observation, runs of ticks, and the bit stream the frame machine receives. -/

namespace Sys2Proof.Machine

/-- The block's own state (rule R21) is the same in both; only the boundary may differ. -/
abbrev SameBlock (s t : State) : Prop := t = { s with env := t.env }

/-- The boundary after a transaction has been answered with `response`, nothing else of it changed. -/
def observe (s : State) (response : List Byte) (txOut : Option Bool) : Env :=
  { s.env with observed := s.env.observed ++ [⟨response, txOut⟩] }

/-- `count` ticks one after the other (the `TICKS` of rule R93). -/
def ticks : Nat → State → Host.Outcome State Fault Refusal
  | 0, s => .next s
  | count + 1, s =>
    match exec .tick s with
    | .next t => ticks count t
    | .fault f => .fault f
    | .refused r => .refused r

/-- The ticks after which the ramp has left its first half however slowly it advances. -/
def slowTicks (tpb : Nat) : Nat := (rampTransition - 1) / rampRetard tpb + 1

/-- The smallest ramp value after `count` ticks of a bit window: only the first half of the ramp retards
(rules R13, R184). -/
def slowestRamp (tpb count : Nat) : Nat :=
  min count (slowTicks tpb) * rampRetard tpb + (count - slowTicks tpb) * rampBase tpb

/-- The transmitter's part of the invariant (rules R21, R23 to R26, R44 items 2, 3, 7). -/
structure TxInv (s : State) : Prop where
  running : s.txLen ≠ 0 ↔ s.mode = .tx
  length : s.txLen = 0 ∨ (24 ≤ s.txLen ∧ s.txLen ≤ 144 ∧ s.txLen % 2 = 0)
  index : s.txBitIndex ≤ 6 * s.txLen
  sample : s.txSample < s.tpb
  low : s.mode ≠ .tx → s.txLevel = false
  canonical : s.txb.wf = true
  capacity : ∀ a v, s.txb.read a = some v → a < txBufCap ∧ v.toNat < 64
  written : ∀ a, a < s.txLen → (s.txb.read a).isSome = true

/-- The demodulator's part (rules R21, R29, R30, R44 item 1). `pace` is why the integrator is bounded. -/
structure PllInv (s : State) : Prop where
  ramp : s.rxRamp < rampLen
  pace : slowestRamp s.tpb s.rxIntegrator ≤ s.rxRamp

/-- The frame machine's part (rules R21, R34 to R38, R44 items 4 to 6; `lengthByte` is rule R83). -/
structure FrameInv (s : State) : Prop where
  bits : s.rxBitCount < 12
  length : s.rxBufLen ≤ rxBufCap
  count : s.rxCount = 0 ∨ (minFrameLen ≤ s.rxCount ∧ s.rxCount ≤ rxBufCap)
  canonical : s.rxb.wf = true
  capacity : ∀ a v, s.rxb.read a = some v → a < rxBufCap
  written : ∀ a, a < s.rxBufLen → (s.rxb.read a).isSome = true
  lengthByte : s.rxBufLen ≠ 0 → s.rxb.read 0 = some (BitVec.ofNat 8 s.rxCount)
  delivered : s.rxGood = true →
    s.rxActive = false ∧ s.rxBufLen = s.rxCount ∧ minFrameLen ≤ s.rxCount ∧ s.rxCount ≤ rxBufCap ∧
      crc16 (readRxb s s.rxCount) = crcResidue
  receiving : s.rxActive = true →
    s.rxGood = false ∧ s.rxBufLen < rxBufCap ∧ (s.rxBufLen = 0 ∨ s.rxBufLen < s.rxCount)
  waiting : s.rxActive = false → s.rxGood = false → s.rxBufLen = 0

/-- The channel-activity part: in Cad the quiet interval has not reached `CAD_TIMEOUT` (rules R254, R258,
R327). -/
abbrev CadInv (s : State) : Prop := s.mode = .cad → quietTicks s < s.cadTimeout

/-- The invariant of the block: rule R44, the ranges of rules R11 and R21, and the canonical form of both
buffers. -/
structure StateInv (s : State) : Prop where
  config : Config.Legal s.tpb s.cadTimeout
  tx : TxInv s
  pll : PllInv s
  frame : FrameInv s
  cad : CadInv s

/-- A tick in which the ramp wraps and one bit is produced (rules R18, R186). -/
abbrev IsBitTick (s : State) : Prop :=
  listening s.mode = true ∧ rampLen ≤ rampSum s (rxIn s)

/-- The window after a bit tick (rules R187, R188). -/
def nextWindow (s : State) : Window :=
  shiftWindow s.rxWindow (slice s.tpb (s.rxIntegrator + (rxIn s).toNat))

/-- What a bit tick from `s` to `t` does outside the frame machine (rule R186), leaving to other
statements the mode, `last_busy` and the boundary, which are taken from `t`. -/
def bitTickBase (s t : State) : State :=
  { s with
    rxLastSample := rxIn s
    rxWindow := nextWindow s
    rxIntegrator := 0
    rxRamp := rampSum s (rxIn s) - 160
    tickCount := s.tickCount + 1
    lastBusy := t.lastBusy
    mode := t.mode
    env := t.env }

/-- One recovered bit reaches the frame machine (rules R186, R188, R211). -/
def receiveBit (s : State) (bit : Bool) : State :=
  frameStep { s with rxWindow := shiftWindow s.rxWindow bit }

/-- Recovered bits, one after the other. -/
def receiveBits : State → List Bool → State
  | s, [] => s
  | s, bit :: bits => receiveBits (receiveBit s bit) bits

/-- The bits of a buffer entry on the line, bit 5 first (rules R25, R68). -/
def entryBits (entry : Byte) : List Bool :=
  [entryBit entry 0, entryBit entry 1, entryBit entry 2, entryBit entry 3, entryBit entry 4, entryBit entry 5]

end Sys2Proof.Machine
end

