-- ==== Sys2Proof/Certificates/Slice0/Obligations.lean ====
section
/-! DEFINITION. The statements for the provers, from the spec's numbered rules, file by file. -/

open Sys2Proof Sys2Proof.Machine

/-! ### Encoding (30_encoding.md) -/

/-- Rules R82, R84, R90, R91: decoding the bytes of a well-formed transaction gives it back, every operand at every
value, and leaves the bytes after it. -/
def Obligations.DecodeOfEncode : Prop :=
  ∀ (i : Instr) (rest : List Byte), i.wellFormed = true → decode (encode i ++ rest) = .instr i rest

/-- Rules R82, R84, R85: whatever decodes is a well-formed transaction, and its bytes are the ones the
encoder writes. -/
def Obligations.DecodedBytesAreTheEncoding : Prop :=
  ∀ (bytes rest : List Byte) (i : Instr), decode bytes = .instr i rest →
    i.wellFormed = true ∧ bytes = encode i ++ rest

/-- Rules R85, R88, R89: a command word is Illegal exactly when it is none of the 14 legal ones, and then it takes one byte. -/
def Obligations.IllegalWordsAreExactlyTheReservedOnes : Prop :=
  ∀ (c : Byte) (rest : List Byte),
    (c ∈ ([0x10, 0x20, 0x30, 0x40, 0x50, 0x60, 0x61, 0x62, 0x63, 0x64, 0x70, 0x80, 0x90, 0xA0] : List Byte) →
      ∀ why after, decode (c :: rest) ≠ .illegal why after) ∧
    (c ∉ ([0x10, 0x20, 0x30, 0x40, 0x50, 0x60, 0x61, 0x62, 0x63, 0x64, 0x70, 0x80, 0x90, 0xA0] : List Byte) →
      ∃ why, decode (c :: rest) = .illegal why rest)

/-- Rules R84, R90, on words of 95_test_vectors.md section 2.1 written out by hand. -/
def Obligations.SampleWordsDecode : Prop :=
  decode [0x10] = .instr .tick [] ∧
  decode [0x20, 0x05, 0x48, 0x65, 0x6C, 0x6C, 0x6F] = .instr (.send [0x48, 0x65, 0x6C, 0x6C, 0x6F]) [] ∧
  decode [0x30, 0xFF, 0x00, 0x01, 0x00] = .instr (.setHeader 0xFF 0x00 0x01 0x00) [] ∧
  decode [0x50, 0x40] = .instr .receive [0x40] ∧
  decode [0x64] = .instr (.setMode .cad) [] ∧
  decode [0x70] = .instr .startCad [] ∧
  decode [0x65] = .illegal (.reservedMode 0x5) [] ∧
  decode [0x11] = .illegal (.argNotZero 0x1 0x1) []

/-- Rules R61, R80: when the pending bytes begin with the encoding of a well-formed instruction, step is
exec of that instruction with exactly those bytes taken. -/
def Obligations.StepRunsTheDecodedInstruction : Prop :=
  ∀ (s : State) (i : Instr) (rest : List Byte), s.env.pending = encode i ++ rest → i.wellFormed = true →
    step s = exec i { s with env := { s.env with pending := rest } }

/-- Rules R85, R89: an Illegal command word takes one byte, gets status 0x04 and changes no state. -/
def Obligations.IllegalWordChangesNoState : Prop :=
  ∀ (s : State) (c : Byte) (rest : List Byte), s.env.pending = c :: rest →
    c ∉ ([0x10, 0x20, 0x30, 0x40, 0x50, 0x60, 0x61, 0x62, 0x63, 0x64, 0x70, 0x80, 0x90, 0xA0] : List Byte) →
    step s = .next { s with env := { s.env with
      pending := rest, observed := s.env.observed ++ [⟨[0x04], none⟩] } }

/-- Rule R311 and log 1 (the model's choice for a transaction not yet whole): where no whole transaction is
pending, whatever prefix of one is, a step changes nothing. -/
def Obligations.StepWaitsForAWholeTransaction : Prop :=
  ∀ (s : State) (i : Instr) (missing : List Byte), i.wellFormed = true → missing ≠ [] →
    s.env.pending ++ missing = encode i → step s = .next s

/-! ### Codec (40_symbol_codec.md) -/

/-- Rule R115. -/
def Obligations.DecodePairOfEncodeByte : Prop :=
  ∀ b : Byte, decodePair ((encodeByte b).1 ++ (encodeByte b).2) = some b

/-- Rules R113, R116: a symbol decodes to n exactly when it is n's symbol. -/
def Obligations.DecodeSymbolIsTheInverseOfTheTable : Prop :=
  ∀ (s : Symbol) (n : Nibble), decodeSymbol s = some n ↔ encodeNibble n = s

/-- Rules R96, R117: a single bit error inside the symbol pair of any byte is detected. -/
def Obligations.SingleBitErrorInASymbolIsInvalid : Prop :=
  ∀ (b : Byte) (k : Nat), k < 12 →
    decodePair (((encodeByte b).1 ++ (encodeByte b).2) ^^^ BitVec.twoPow 12 k) = none

/-- Rules R68, R69: the 12 bits of a byte sent bit 5 first, shifted into any window, leave the pair that
decodes to that byte. -/
def Obligations.ByteSentIsTheByteReceived : Prop :=
  ∀ (b : Byte) (w : Window),
    decodePair (([(encodeByte b).1, (encodeByte b).2].flatMap fun s => entryBits (s.setWidth 8)).foldl
      shiftWindow w) = some b

/-! ### CRC (41_crc16.md) -/

/-- Rule R135: the residue does not depend on the data, and a frame SEND builds passes the check. -/
def Obligations.CrcResidueOfEveryFrame : Prop :=
  (∀ d : List Byte, crc16 (d ++ [(~~~ crc16 d).extractLsb' 0 8, (~~~ crc16 d).extractLsb' 8 8]) = 0xF0B8) ∧
  (∀ (s : State) (payload : List Byte), crcCheck (frameBytes s payload) = true)

/-- Rule R137: changing one byte of a frame (a single flipped bit is one case) changes its CRC, so a frame
that passed the check fails it. -/
def Obligations.CrcDetectsOneChangedByte : Prop :=
  ∀ (before after : List Byte) (b c : Byte), b ≠ c → crcCheck (before ++ b :: after) = true →
    crcCheck (before ++ c :: after) = false

/-! ### Transmitter (42_tx_shift_register.md) -/

/-- Rule R153: in every mode, the four header bytes and nothing else. -/
def Obligations.SetHeaderWritesTheHeader : Prop :=
  ∀ (dest src ident flags : Byte) (s : State),
    encode (.setHeader dest src ident flags) = [0x30, dest, src, ident, flags] ∧
    exec (.setHeader dest src ident flags) s =
      .next { s with hdrTo := dest, hdrFrom := src, hdrId := ident, hdrFlags := flags,
                     env := observe s [0x00] none }

/-- Rule R156 with the layout of rule R99: the accepted SEND, its frame and its buffer entry by entry, and
the two refused ones, Busy first. -/
def Obligations.SendAssemblesTheFrame : Prop :=
  ∀ (payload : List Byte) (s : State),
    encode (.send payload) = 0x20 :: BitVec.ofNat 8 payload.length :: payload ∧
    (s.mode = .tx → exec (.send payload) s = .next { s with env := observe s [0x02] none }) ∧
    (s.mode ≠ .tx → 60 < payload.length →
      exec (.send payload) s = .next { s with env := observe s [0x01] none }) ∧
    (s.mode ≠ .tx → payload.length ≤ 60 →
      ∃ t n data frame, n = 7 + payload.length ∧
        data = [BitVec.ofNat 8 n, s.hdrTo, s.hdrFrom, s.hdrId, s.hdrFlags] ++ payload ∧
        frame = data ++ [(~~~ crc16 data).extractLsb' 0 8, (~~~ crc16 data).extractLsb' 8 8] ∧
        exec (.send payload) s = .next t ∧
        t = { s with txb := t.txb, txLen := 10 + 2 * n, txBitIndex := 0, txSample := 0, mode := .tx,
                     env := observe s [0x00] none } ∧
        (∀ a, a < 8 → t.txb.read a = some 0x2A) ∧
        t.txb.read 8 = some 0x2C ∧ t.txb.read 9 = some 0x38 ∧
        (∀ j b, frame[j]? = some b →
          t.txb.read (10 + 2 * j) = some ((encodeByte b).1.setWidth 8) ∧
          t.txb.read (11 + 2 * j) = some ((encodeByte b).2.setWidth 8)) ∧
        (∀ a, 10 + 2 * n ≤ a → t.txb.read a = s.txb.read a))

/-- Rules R160, R243, R251: a tick in Tx holds the bit, puts the next one on the line, or drains into Rx
with the PLL reset; the RX line is not sampled. -/
def Obligations.TickInTxRunsThePump : Prop :=
  ∀ s : State, s.mode = .tx →
    (s.txSample ≠ 0 →
      exec .tick s = .next { s with tickCount := s.tickCount + 1, txSample := (s.txSample + 1) % s.tpb,
                                    env := observe s [0x00] (some s.txLevel) }) ∧
    (s.txSample = 0 → s.txBitIndex = 6 * s.txLen →
      exec .tick s = .next { s with
        tickCount := s.tickCount + 1, txLevel := false, txLen := 0, txBitIndex := 0, mode := .rx,
        rxRamp := 0, rxIntegrator := 0, rxLastSample := false, rxWindow := 0, rxActive := false,
        rxBitCount := 0, rxBufLen := if s.rxGood = true then s.rxBufLen else 0,
        rxCount := if s.rxGood = true then s.rxCount else 0,
        env := observe s [0x00] (some false) }) ∧
    (s.txSample = 0 → s.txBitIndex ≠ 6 * s.txLen →
      ∀ entry, entry = readTxb s (s.txBitIndex / 6) →
        exec .tick s = .next { s with
          tickCount := s.tickCount + 1, txLevel := entry.getLsbD (5 - s.txBitIndex % 6),
          txBitIndex := s.txBitIndex + 1, txSample := 1 % s.tpb,
          env := observe s [0x00] (some (entry.getLsbD (5 - s.txBitIndex % 6))) })

/-- Rule R161: from a successful SEND in any state, bit k of the transmission is on the line after each of
the ticks k·TPB + 1 to (k + 1)·TPB. -/
def Obligations.BitScheduleOfATransmission : Prop :=
  ∀ (payload : List Byte) (s : State) (k m : Nat), s.mode ≠ .tx → payload.length ≤ 60 → 1 ≤ s.tpb →
    k < 6 * (10 + 2 * (7 + payload.length)) → k * s.tpb + 1 ≤ m → m ≤ (k + 1) * s.tpb →
    ∃ t u entry, exec (.send payload) s = .next t ∧ ticks m t = .next u ∧
      (txEntries s payload)[k / 6]? = some entry ∧ u.txLevel = entry.getLsbD (5 - k % 6)

/-- Rule R162: the transmission drains in tick (60 + 12·N)·TPB + 1 after the SEND and in none before. -/
def Obligations.DrainTimeOfATransmission : Prop :=
  ∀ (payload : List Byte) (s : State), s.mode ≠ .tx → payload.length ≤ 60 → 1 ≤ s.tpb →
    ∃ t, exec (.send payload) s = .next t ∧
      (∀ m, m ≤ (60 + 12 * (7 + payload.length)) * s.tpb → ∃ u, ticks m t = .next u ∧ u.mode = .tx) ∧
      ∃ u, ticks ((60 + 12 * (7 + payload.length)) * s.tpb + 1) t = .next u ∧
        u.mode = .rx ∧ u.txLen = 0 ∧ u.txLevel = false ∧
        (60 + 12 * (7 + payload.length)) * s.tpb + 1 ≤
          (10 + 2 + 8 + 2 * payload.length + 4) * 8 * s.tpb

/-- Rules R65, R163, R324: while a transmission runs, no operation but TICK touches it. -/
def Obligations.TransmissionCannotBeDisturbed : Prop :=
  ∀ (i : Instr) (s t : State), s.mode = .tx → i ≠ .tick → exec i s = .next t →
    t.mode = .tx ∧ t.txb = s.txb ∧ t.txLen = s.txLen ∧ t.txBitIndex = s.txBitIndex ∧
      t.txSample = s.txSample ∧ t.txLevel = s.txLevel

/-- Rule R163: nothing but the drain ends a transmission; SEND is Busy, SET_MODE and START_CAD Rejected. -/
def Obligations.TransmissionCannotBeCancelled : Prop :=
  ∀ s : State, s.mode = .tx →
    (∀ payload, exec (.send payload) s = .next { s with env := observe s [0x02] none }) ∧
    (∀ m, exec (.setMode m) s = .next { s with env := observe s [0x03] none }) ∧
    exec .startCad s = .next { s with env := observe s [0x03] none } ∧
    ∀ i t, exec i s = .next t → t.mode ≠ .tx → i = .tick ∧ s.txSample = 0 ∧ s.txBitIndex = 6 * s.txLen

/-- Rule R165. -/
def Obligations.TxDoneTellsWhetherModeIsTx : Prop :=
  encode .txDone = [0x90] ∧ ∀ s : State, exec .txDone s =
    .next { s with env := observe s [0x00, if s.mode = .tx then 0 else 1] none }

/-! ### Demodulator (43_rx_pll.md) -/

/-- Rule R184 with the constants of rules R12 and R13: the three increments at every legal TPB. -/
def Obligations.RampIncrementTable : Prop :=
  ∀ (tpb ramp : Nat), 2 ≤ tpb → tpb ≤ 16 →
    rampInc tpb false ramp = 160 / tpb ∧
    (ramp < 80 → rampInc tpb true ramp + 9 = 160 / tpb) ∧
    (80 ≤ ramp → rampInc tpb true ramp = 160 / tpb + 9) ∧
    1 ≤ rampInc tpb true ramp

/-- Rules R183 to R186: a tick in Rx or Cad within a bit window. The quiet interval is rules R253, R254. -/
def Obligations.TickWithinABitWindow : Prop :=
  ∀ (s : State) (level : Bool) (sum : Nat), (s.mode = .rx ∨ s.mode = .cad) → level = rxIn s →
    sum = s.rxRamp + rampInc s.tpb (level != s.rxLastSample) s.rxRamp → sum < 160 →
    ∃ t, exec .tick s = .next t ∧
      t = { s with
        tickCount := s.tickCount + 1, rxLastSample := level, rxRamp := sum,
        rxIntegrator := s.rxIntegrator + level.toNat,
        lastBusy := t.lastBusy, mode := t.mode, env := t.env } ∧
      t.env = { s.env with
        rxDraws := s.env.rxDraws.tail, drawCount := s.env.drawCount + 1,
        observed := s.env.observed ++ [⟨[0x00], some s.txLevel⟩] }

/-- Rules R180, R253, R254: every tick in Rx or Cad that answers marks the channel busy exactly on a busy
event, and leaves Cad exactly when the quiet interval has reached CAD_TIMEOUT. -/
def Obligations.BusyEventAndCadExit : Prop :=
  ∀ (s t : State), (s.mode = .rx ∨ s.mode = .cad) → exec .tick s = .next t →
    t.lastBusy = (if (s.cadBusySource = .rxHigh ∧ rxIn s = true) ∨
        (s.cadBusySource = .syncActive ∧ t.rxActive = true) then s.tickCount + 1 else s.lastBusy) ∧
    t.mode = (if s.mode = .cad ∧ s.cadTimeout ≤ (t.tickCount - t.lastBusy).toNat then .rx else s.mode)

/-- Rules R71, R334: a tick in Rx or Cad samples the RX line exactly once, and answers Ok with TX_OUT. -/
def Obligations.ListeningTickDrawsOnce : Prop :=
  ∀ (s t : State), (s.mode = .rx ∨ s.mode = .cad) → exec .tick s = .next t →
    t.env.rxDraws = s.env.rxDraws.tail ∧ t.env.drawCount = s.env.drawCount + 1 ∧
    t.env.pending = s.env.pending ∧ t.env.observed = s.env.observed ++ [⟨[0x00], some s.txLevel⟩] ∧
    t.rxLastSample = rxIn s

/-- Rules R13, R29, R30: at every legal TPB the integrator (the current sample included) never exceeds the
table's longest bit window, and the ramp sum never exceeds 159 plus the advance. -/
def Obligations.IntegratorAndRampBounds : Prop :=
  ∀ (s : State) (level : Bool), StateInv s →
    s.rxIntegrator + level.toNat ≤
      [3, 4, 5, 7, 8, 11, 12, 15, 17, 22, 27, 34, 48, 88, 88].getD (s.tpb - 2) 0 ∧
    rampSum s level ≤ 159 + (160 / s.tpb + 9) ∧ rampSum s level ≤ 248

/-- Rules R187, R188: the slicer, and the window shift bit by bit. -/
def Obligations.SlicerAndWindowShift : Prop :=
  (∀ tpb i : Nat, slice tpb i = true ↔ tpb ≤ 2 * i) ∧
  (∀ (w : Window) (b : Bool), (shiftWindow w b).toNat = (2 * w.toNat + b.toNat) % 4096)

/-! ### Frame machine (44_frame_fsm.md) -/

/-- Rules R211, R226: a bit tick while a delivered frame is held moves only the PLL. -/
def Obligations.DeliveredFrameIsHeld : Prop :=
  ∀ s : State, IsBitTick s → s.rxActive = false → s.rxGood = true →
    ∃ t, exec .tick s = .next t ∧ t = bitTickBase s t ∧ t.env.ghost = s.env.ghost

/-- Rules R211, R212: a bit tick while waiting acquires the start symbol exactly when the window holds it. -/
def Obligations.SyncAcquiresTheStartSymbol : Prop :=
  ∀ s : State, IsBitTick s → s.rxActive = false → s.rxGood = false →
    (nextWindow s = 0xB38 → ∃ t, exec .tick s = .next t ∧
      t = { bitTickBase s t with rxActive := true, rxBitCount := 0, rxBufLen := 0, rxCount := 0 } ∧
      t.env.ghost = s.env.ghost ++ [(s.tickCount + 1, .sync)]) ∧
    (nextWindow s ≠ 0xB38 → ∃ t, exec .tick s = .next t ∧ t = bitTickBase s t ∧ t.env.ghost = s.env.ghost)

/-- Rule R214: a bit tick that does not complete a byte only counts the bit. -/
def Obligations.BitOfAByteIsCounted : Prop :=
  ∀ s : State, IsBitTick s → s.rxActive = true → s.rxBitCount ≠ 11 →
    ∃ t, exec .tick s = .next t ∧ t = { bitTickBase s t with rxBitCount := s.rxBitCount + 1 } ∧
      t.env.ghost = s.env.ghost

/-- Rules R215, R217, R220: the two aborts of a completed byte, an invalid symbol and a first byte outside
7 to 67: the partial frame is discarded in that tick and nothing is appended. -/
def Obligations.InvalidSymbolOrLengthAborts : Prop :=
  ∀ s : State, IsBitTick s → s.rxActive = true → s.rxBitCount = 11 →
    (decodePair (nextWindow s) = none → ∃ t, exec .tick s = .next t ∧
      t = { bitTickBase s t with rxActive := false, rxBufLen := 0, rxBitCount := 0, rxCount := 0 } ∧
      t.env.ghost = s.env.ghost ++ [(s.tickCount + 1, .aborted .invalidSymbol)]) ∧
    (∀ v, decodePair (nextWindow s) = some v → s.rxBufLen = 0 → (v.toNat < 7 ∨ 67 < v.toNat) →
      ∃ t, exec .tick s = .next t ∧
        t = { bitTickBase s t with rxActive := false, rxBufLen := 0, rxBitCount := 0, rxCount := 0 } ∧
        t.env.ghost = s.env.ghost ++ [(s.tickCount + 1, .aborted .badLength)])

/-- Rules R214, R217, R218: a completed byte that does not complete the frame is appended; the first one
declares the length. Every other entry of RXB keeps its value. -/
def Obligations.ByteIsAppended : Prop :=
  ∀ (s : State) (v : Byte), IsBitTick s → s.rxActive = true → s.rxBitCount = 11 →
    decodePair (nextWindow s) = some v →
    (s.rxBufLen = 0 → 7 ≤ v.toNat → v.toNat ≤ 67 → ∃ t, exec .tick s = .next t ∧
      t = { bitTickBase s t with rxb := t.rxb, rxBufLen := 1, rxBitCount := 0, rxCount := v.toNat } ∧
      t.env.ghost = s.env.ghost ∧
      ∀ a, t.rxb.read a = if a = 0 then some v else s.rxb.read a) ∧
    (s.rxBufLen ≠ 0 → s.rxBufLen < 67 → s.rxBufLen + 1 ≠ s.rxCount → ∃ t, exec .tick s = .next t ∧
      t = { bitTickBase s t with rxb := t.rxb, rxBufLen := s.rxBufLen + 1, rxBitCount := 0 } ∧
      t.env.ghost = s.env.ghost ∧
      ∀ a, t.rxb.read a = if a = s.rxBufLen then some v else s.rxb.read a)

/-- Rules R218, R225: the byte that completes the frame is appended and the CRC over all N bytes decides:
deliver, or abort with BadCrc. -/
def Obligations.LastByteIsVerified : Prop :=
  ∀ (s : State) (v : Byte) (body : List Byte), IsBitTick s → s.rxActive = true → s.rxBitCount = 11 →
    decodePair (nextWindow s) = some v → s.rxBufLen ≠ 0 → s.rxBufLen < 67 → s.rxBufLen + 1 = s.rxCount →
    body = readRxb s s.rxBufLen →
    ∃ t, exec .tick s = .next t ∧
      (∀ a, t.rxb.read a = if a = s.rxBufLen then some v else s.rxb.read a) ∧
      (crc16 (body ++ [v]) = 0xF0B8 →
        t = { bitTickBase s t with rxb := t.rxb, rxBufLen := s.rxCount, rxBitCount := 0, rxGood := true,
                                   rxActive := false } ∧
        t.env.ghost = s.env.ghost ++ [(s.tickCount + 1, .good)]) ∧
      (crc16 (body ++ [v]) ≠ 0xF0B8 →
        t = { bitTickBase s t with rxb := t.rxb, rxBufLen := 0, rxBitCount := 0, rxCount := 0,
                                   rxActive := false } ∧
        t.env.ghost = s.env.ghost ++ [(s.tickCount + 1, .aborted .badCrc)])

/-- Rules R69, R99, R214, R218, R225: the bits of any frame SEND builds, received right after the start
symbol, deliver exactly that frame. -/
def Obligations.FrameSentIsTheFrameDelivered : Prop :=
  ∀ (sender receiver : State) (payload : List Byte), payload.length ≤ 60 →
    receiver.rxActive = true → receiver.rxGood = false → receiver.rxBitCount = 0 → receiver.rxBufLen = 0 →
    ∃ t, t = receiveBits receiver (((txEntries sender payload).drop 10).flatMap entryBits) ∧
      t.rxGood = true ∧ t.rxActive = false ∧ t.rxCount = 7 + payload.length ∧
      t.rxBufLen = 7 + payload.length ∧
      readRxb t t.rxCount = frameBytes sender payload

/-- Rule R230. -/
def Obligations.AvailableReadsRxGood : Prop :=
  encode .available = [0x40] ∧ ∀ s : State, exec .available s =
    .next { s with env := observe s [0x00, if s.rxGood = true then 1 else 0] none }

/-- Rule R231: Empty without a delivered frame; otherwise the whole frame, and the frame is gone, so a
second RECEIVE is Empty and the frame machine waits for a start symbol. -/
def Obligations.ReceiveDrainsTheFrame : Prop :=
  encode .receive = [0x50] ∧ ∀ s : State,
    (s.rxGood = false → exec .receive s = .next { s with env := observe s [0x05] none }) ∧
    (∀ frame, s.rxGood = true → frame = readRxb s s.rxCount →
      ∃ t, exec .receive s = .next t ∧
        t = { s with rxGood := false, rxBufLen := 0, rxCount := 0,
                     env := observe s (0x00 :: frame) none } ∧
        exec .receive t = .next { t with env := observe t [0x05] none } ∧
        (s.rxActive = false → frameState t = .waitStart))

/-- Rules R38, R157, R190, R226: a delivered frame, with every byte of it, survives every operation but
RECEIVE. -/
def Obligations.DeliveredFrameSurvivesUntilReceive : Prop :=
  ∀ (i : Instr) (s t : State), s.rxGood = true → s.rxActive = false → i ≠ .receive →
    exec i s = .next t →
    t.rxGood = true ∧ t.rxActive = false ∧ t.rxb = s.rxb ∧ t.rxBufLen = s.rxBufLen ∧ t.rxCount = s.rxCount

/-- Rules R101, R232: the header, payload and CRC views of the frame SEND builds give back the header
registers, the payload and the two CRC bytes, and the first byte is the length. -/
def Obligations.ViewsOfASentFrame : Prop :=
  ∀ (s : State) (payload : List Byte), payload.length ≤ 60 →
    (frameBytes s payload).length = 7 + payload.length ∧
    (frameBytes s payload)[0]? = some (BitVec.ofNat 8 (7 + payload.length)) ∧
    frameHeader (frameBytes s payload) = [s.hdrTo, s.hdrFrom, s.hdrId, s.hdrFlags] ∧
    framePayload (frameBytes s payload) = payload ∧
    frameCrc (frameBytes s payload) = [fcsLow (frameData s payload), fcsHigh (frameData s payload)]

/-! ### Mode automaton (45_mode_fsm.md) -/

/-- Rules R241, R242: in Sleep and Idle a tick changes only the tick count. -/
def Obligations.TickInSleepOrIdleOnlyCounts : Prop :=
  ∀ s : State, (s.mode = .sleep ∨ s.mode = .idle) →
    exec .tick s = .next { s with tickCount := s.tickCount + 1, env := observe s [0x00] (some s.txLevel) }

/-- Rule R240: every change of mode is one of the table's, with the table's cause (the CAD timeout of rule
R254, the drain of rule R160); a request that does not change the mode changes nothing, and is Ok for the
current mode (but Tx, rule R247) and Rejected otherwise. -/
def Obligations.EveryModeChangeIsInTheTable : Prop :=
  (∀ (i : Instr) (m : Mode) (s t : State), (i = .setMode m ∨ (i = .startCad ∧ m = .cad)) →
    exec i s = .next t → t.mode = s.mode →
    t = { s with env := observe s [if m = s.mode ∧ m ≠ .tx then 0x00 else 0x03] none }) ∧
  ∀ (i : Instr) (s t : State), exec i s = .next t → t.mode ≠ s.mode →
    (s.mode = .sleep ∧ t.mode = .idle ∧ i = .setMode .idle) ∨
    (s.mode = .idle ∧ t.mode = .sleep ∧ i = .setMode .sleep) ∨
    (s.mode = .idle ∧ t.mode = .rx ∧ i = .setMode .rx) ∨
    (s.mode = .rx ∧ t.mode = .idle ∧ i = .setMode .idle) ∨
    (s.mode = .rx ∧ t.mode = .cad ∧ (i = .startCad ∨ i = .setMode .cad)) ∨
    (s.mode = .cad ∧ t.mode = .rx ∧ i = .tick ∧ s.cadTimeout ≤ (t.tickCount - t.lastBusy).toNat) ∨
    (s.mode ≠ .tx ∧ t.mode = .tx ∧ ∃ payload, i = .send payload ∧ payload.length ≤ 60) ∨
    (s.mode = .tx ∧ t.mode = .rx ∧ i = .tick ∧ s.txSample = 0 ∧ s.txBitIndex = 6 * s.txLen)

/-- Rules R190, R246, R247, R248: SET_MODE for every pair of modes: Ok and nothing else for the current
mode (but Tx), the legal moves with what entering does, and Rejected for every other pair. -/
def Obligations.SetModeOfEveryPair : Prop :=
  ∀ (m : Mode) (s : State),
    encode (.setMode m) = [0x60 ||| (modeCode m).setWidth 8] ∧
    (m = s.mode → m ≠ .tx → exec (.setMode m) s = .next { s with env := observe s [0x00] none }) ∧
    (((s.mode = .sleep ∧ m = .idle) ∨ (s.mode = .idle ∧ m = .sleep) ∨ (s.mode = .rx ∧ m = .idle)) →
      exec (.setMode m) s = .next { s with mode := m, env := observe s [0x00] none }) ∧
    (s.mode = .idle → m = .rx → exec (.setMode m) s = .next { s with
      mode := .rx, rxRamp := 0, rxIntegrator := 0, rxLastSample := false, rxWindow := 0,
      rxActive := false, rxBitCount := 0, rxBufLen := if s.rxGood = true then s.rxBufLen else 0,
      rxCount := if s.rxGood = true then s.rxCount else 0, env := observe s [0x00] none }) ∧
    (s.mode = .rx → m = .cad →
      exec (.setMode m) s = .next { s with mode := .cad, lastBusy := s.tickCount,
                                           env := observe s [0x00] none }) ∧
    ((s.mode = .tx ∨ m = .tx ∨ (s.mode = .sleep ∧ (m = .rx ∨ m = .cad)) ∨ (s.mode = .idle ∧ m = .cad) ∨
        (s.mode = .rx ∧ m = .sleep) ∨ (s.mode = .cad ∧ m ≠ .cad)) →
      exec (.setMode m) s = .next { s with env := observe s [0x03] none })

/-- Rule R249. -/
def Obligations.StartCadOfEveryMode : Prop :=
  encode .startCad = [0x70] ∧ ∀ s : State,
    (s.mode = .cad → exec .startCad s = .next { s with env := observe s [0x00] none }) ∧
    (s.mode = .rx → exec .startCad s = .next { s with mode := .cad, lastBusy := s.tickCount,
                                                      env := observe s [0x00] none }) ∧
    (s.mode ≠ .cad → s.mode ≠ .rx → exec .startCad s = .next { s with env := observe s [0x03] none })

/-- Rule R258, the difference taken modulo 2^32 (rule R257); in Cad the answer is 1 in every state that
meets the invariant. -/
def Obligations.IsChannelBusyOfEveryMode : Prop :=
  encode .isChannelBusy = [0x80] ∧ ∀ s : State,
    (s.mode = .cad → StateInv s →
      exec .isChannelBusy s = .next { s with env := observe s [0x00, 0x01] none }) ∧
    (s.mode = .tx → exec .isChannelBusy s = .next { s with env := observe s [0x00, 0x01] none }) ∧
    ((s.mode = .rx ∨ s.mode = .cad) → ∃ quiet : Nat,
      quiet = (s.tickCount.toNat + 2 ^ 32 - s.lastBusy.toNat) % 2 ^ 32 ∧
      exec .isChannelBusy s =
        .next { s with env := observe s [0x00, if quiet < s.cadTimeout then 1 else 0] none }) ∧
    ((s.mode = .sleep ∨ s.mode = .idle) →
      exec .isChannelBusy s = .next { s with env := observe s [0x00, 0x00] none })

/-- Rule R262 with the codes of rule R87. -/
def Obligations.GetModeReadsTheCode : Prop :=
  encode .getMode = [0xA0] ∧ ∀ s : State, ∃ code : Byte, exec .getMode s = .next { s with env := observe s [0x00, code] none } ∧
    (s.mode = .sleep → code = 0) ∧ (s.mode = .idle → code = 1) ∧ (s.mode = .tx → code = 2) ∧
    (s.mode = .rx → code = 3) ∧ (s.mode = .cad → code = 4)

/-- Rule R250: Sleep behaves as Idle: apart from GET_MODE and SET_MODE every operation has the same
outcome in both, but for a mode left as it was; and only SET_MODE Idle or SEND leaves Sleep. -/
def Obligations.SleepBehavesAsIdle : Prop :=
  (∀ (i : Instr) (s t : State), s.mode = .sleep → exec i s = .next t → t.mode ≠ .sleep →
    i = .setMode .idle ∨ ∃ payload, i = .send payload) ∧
  ∀ (i : Instr) (s t : State), s.mode = .idle → i ≠ .getMode → (∀ m, i ≠ .setMode m) →
    exec i s = .next t →
    exec i { s with mode := .sleep } = .next { t with mode := if t.mode = .idle then .sleep else t.mode }

/-- Rule R255, first case: with RX-level busy detection and a low line, Cad entered by START_CAD lasts
exactly CAD_TIMEOUT ticks. -/
def Obligations.QuietCadLastsCadTimeoutTicks : Prop :=
  ∀ (s : State) (rest : List Bool), StateInv s → s.mode = .rx → s.cadBusySource = .rxHigh →
    s.env.rxDraws = List.replicate s.cadTimeout false ++ rest →
    ∃ t, exec .startCad s = .next t ∧
      (∀ k, k < s.cadTimeout → ∃ u, ticks k t = .next u ∧ u.mode = .cad) ∧
      ∃ u, ticks s.cadTimeout t = .next u ∧ u.mode = .rx

/-- Rules R71, R242, R243: a tick in Sleep, Idle or Tx does not depend on the RX line and samples nothing. -/
def Obligations.RxLineIsIgnoredOutsideRxAndCad : Prop :=
  ∀ (s t : State) (draws : List Bool), s.mode ≠ .rx → s.mode ≠ .cad → exec .tick s = .next t →
    t.env.rxDraws = s.env.rxDraws ∧
    exec .tick { s with env := { s.env with rxDraws := draws } } =
      .next { t with env := { t.env with rxDraws := draws } }

/-! ### The whole block (10_state.md, 60_exceptions.md, 70_reset_and_hazards.md) -/

/-- Rules R21, R41, R42: which operations write which state. -/
def Obligations.OnlyTheListedOperationsWrite : Prop :=
  ∀ (i : Instr) (s t : State), exec i s = .next t →
    (t.tpb = s.tpb ∧ t.cadTimeout = s.cadTimeout ∧ t.cadBusySource = s.cadBusySource) ∧
    (i ≠ .tick → (∀ p, i ≠ .send p) → (∀ m, i ≠ .setMode m) → i ≠ .startCad → t.mode = s.mode) ∧
    ((∀ d f n g, i ≠ .setHeader d f n g) →
      t.hdrTo = s.hdrTo ∧ t.hdrFrom = s.hdrFrom ∧ t.hdrId = s.hdrId ∧ t.hdrFlags = s.hdrFlags) ∧
    ((∀ p, i ≠ .send p) → t.txb = s.txb) ∧
    ((∀ p, i ≠ .send p) → i ≠ .tick →
      t.txLen = s.txLen ∧ t.txBitIndex = s.txBitIndex ∧ t.txSample = s.txSample) ∧
    (i ≠ .tick → t.txLevel = s.txLevel ∧ t.tickCount = s.tickCount ∧ t.rxb = s.rxb) ∧
    (i ≠ .tick → (∀ m, i ≠ .setMode m) →
      t.rxRamp = s.rxRamp ∧ t.rxIntegrator = s.rxIntegrator ∧ t.rxLastSample = s.rxLastSample ∧
      t.rxWindow = s.rxWindow ∧ t.rxActive = s.rxActive ∧ t.rxBitCount = s.rxBitCount) ∧
    (i ≠ .tick → (∀ m, i ≠ .setMode m) → i ≠ .receive →
      t.rxBufLen = s.rxBufLen ∧ t.rxCount = s.rxCount) ∧
    (i ≠ .tick → i ≠ .receive → t.rxGood = s.rxGood) ∧
    (i ≠ .tick → (∀ m, i ≠ .setMode m) → i ≠ .startCad → t.lastBusy = s.lastBusy)

/-- Rules R16, R281, R289: an operation answered with a status other than Ok leaves the state as it was. -/
def Obligations.RefusedOperationChangesNothing : Prop :=
  ∀ (i : Instr) (s t : State) (o : Observation), exec i s = .next t →
    t.env.observed = s.env.observed ++ [o] → o.response.head? ≠ some 0x00 →
    t = { s with env := { s.env with observed := t.env.observed } }

/-- Rules R44, R21, R23, R30, R35, R292: from every state that meets the invariant a step answers a next
state, never a fault or a refusal, and that state meets the invariant. -/
def Obligations.EveryStepAnswersAndKeepsTheInvariant : Prop :=
  ∀ s : State, StateInv s → ∃ t, step s = .next t ∧ StateInv t

/-- Rules R44, R311: the invariant holds right after construction with any legal configuration, and in
the reset state, which is construction with the defaults of rule R11 (log 7: the model's choice). -/
def Obligations.ConstructionMeetsTheInvariant : Prop :=
  construct Config.default = .next State.reset ∧ StateInv State.reset ∧ ∀ (args : ResetArgs) (t : State), construct args = .next t → StateInv t

/-- Rule R310: construction with any inputs, refused or field by field. -/
def Obligations.ConstructionSetsTheResetValues : Prop :=
  (∀ args : ResetArgs, (args.rxGain ≠ none ∨ args.seed ≠ none) → ∃ r, construct args = .refused r) ∧
  (∀ args : ResetArgs, (args.tpb < 2 ∨ 16 < args.tpb ∨ args.cadTimeout < 1 ∨ 2 ^ 32 ≤ args.cadTimeout) →
    ∃ r, construct args = .refused r) ∧
  (∀ args : ResetArgs, args.rxGain = none → args.seed = none → 2 ≤ args.tpb → args.tpb ≤ 16 →
    1 ≤ args.cadTimeout → args.cadTimeout < 2 ^ 32 → ∃ t, construct args = .next t ∧
      t.tpb = args.tpb ∧ t.cadTimeout = args.cadTimeout ∧ t.cadBusySource = args.cadBusySource ∧
      t.mode = .idle ∧ t.txLen = 0 ∧ t.txBitIndex = 0 ∧ t.txSample = 0 ∧ t.txLevel = false ∧
      t.hdrTo = 0xFF ∧ t.hdrFrom = 0xFF ∧ t.hdrId = 0x00 ∧ t.hdrFlags = 0x00 ∧
      t.rxRamp = 0 ∧ t.rxIntegrator = 0 ∧ t.rxLastSample = false ∧ t.rxWindow = 0 ∧
      t.rxActive = false ∧ t.rxBitCount = 0 ∧ t.rxBufLen = 0 ∧ t.rxCount = 0 ∧ t.rxGood = false ∧
      t.tickCount = 0 ∧ t.lastBusy = 0)

/-- Rules R280, R282, R283, R285: an operation records at most one ghost event, only a TICK in Rx or Cad
records one, and the list changes no outcome. -/
def Obligations.GhostEventsAreNotState : Prop :=
  ∀ (i : Instr) (s t : State), exec i s = .next t →
    (t.env.ghost = s.env.ghost ∨
      (i = .tick ∧ (s.mode = .rx ∨ s.mode = .cad) ∧
        ∃ e, t.env.ghost = s.env.ghost ++ [(s.tickCount + 1, e)])) ∧
    ∀ g, ∃ g', exec i { s with env := { s.env with ghost := g } } =
      .next { t with env := { t.env with ghost := g' } }

/-- Rule R292: in every state every operation answers a next state, never a fault or a refusal; the illegal
requests are Rejected and the illegal words Illegal; only a configuration outside rules R10 and R11 is refused. -/
def Obligations.EveryOperationAnswersInEveryState : Prop :=
  (∀ (i : Instr) (s : State), ∃ t, exec i s = .next t) ∧
  (∀ (m : Mode) (s : State),
    (m = .tx ∨ s.mode = .tx ∨ (s.mode = .sleep ∧ (m = .rx ∨ m = .cad)) ∨ (s.mode = .idle ∧ m = .cad) ∨
      (s.mode = .rx ∧ m = .sleep) ∨ (s.mode = .cad ∧ m ≠ .cad)) →
    exec (.setMode m) s = .next { s with env := observe s [0x03] none }) ∧
  (∀ s : State, s.mode ≠ .rx → s.mode ≠ .cad →
    exec .startCad s = .next { s with env := observe s [0x03] none }) ∧
  (∀ (s : State) (why : IllegalWord) (after : List Byte), decode s.env.pending = .illegal why after →
    ∃ t, step s = .next t ∧ SameBlock s t ∧ t.env.observed = s.env.observed ++ [⟨[0x04], none⟩]) ∧
  (∀ args : ResetArgs, (∃ r, construct args = .refused r) ↔
    args.rxGain ≠ none ∨ args.seed ≠ none ∨ ¬ Config.Legal args.tpb args.cadTimeout)

/-- Rules R15, R23, R35, R310: an entry of a buffer holds what was written to it; what one nothing has
written holds is a free value (log 4), and there is no entry above RXB to write (log 5, the model's choice). -/
def Obligations.BufferEntriesHoldWhatWasWritten : Prop :=
  ∀ s : State,
    (∀ a, readTxb s a = match s.txb.read a with | some v => v | none => Config.freeTxb a) ∧
    (∀ count, (readRxb s count).length = count ∧ ∀ a, a < count →
      (readRxb s count)[a]? = some (match s.rxb.read a with | some v => v | none => Config.freeRxb a)) ∧
    (∀ v, IsBitTick s → s.rxActive = true → s.rxBitCount = 11 → decodePair (nextWindow s) = some v →
      67 ≤ s.rxBufLen → ∃ t, exec .tick s = .next t ∧ t.rxb = s.rxb)

/-- Rules R21, R23, R35: entries of TXB from tx_len on and of RXB from rx_buf_len on are never read: from a
state that meets the invariant, other contents there (written or not) change nothing but the contents that
again stand from tx_len on and from rx_buf_len on. -/
def Obligations.BufferTailsAreNeverRead : Prop :=
  ∀ (i : Instr) (s t : State) (tx rx : Memory), StateInv s →
    (∀ a, a < s.txLen → tx.read a = s.txb.read a) → (∀ a, a < s.rxBufLen → rx.read a = s.rxb.read a) →
    exec i s = .next t →
    ∃ tx' rx', exec i { s with txb := tx, rxb := rx } = .next { t with txb := tx', rxb := rx' } ∧
      (∀ a, a < t.txLen → tx'.read a = t.txb.read a) ∧ (∀ a, a < t.rxBufLen → rx'.read a = t.rxb.read a)
end

