-- ==== Sys2Proof/Laws/Crc.lean ====
section
/-! SUPPORT. The CRC engine is linear: what one update does to the two halves of the running value, and that
no two values share a successor. -/

namespace Sys2Proof.Machine

/-- One shift of a sum is the sum of the shifts. -/
theorem crcShift_xor (a b : Crc) : crcShift (a ^^^ b) = crcShift a ^^^ crcShift b := by
  have low : (a ^^^ b).getLsbD 0 = (a.getLsbD 0 ^^ b.getLsbD 0) := BitVec.getLsbD_xor
  simp only [crcShift, low, BitVec.ushiftRight_xor_distrib]
  cases a.getLsbD 0 <;> cases b.getLsbD 0
  · rfl
  · exact BitVec.xor_assoc _ _ _
  · simp only [Bool.xor_false, if_true, Bool.false_eq_true, if_false]; ac_rfl
  · simp only [Bool.xor_self, Bool.false_eq_true, if_true, if_false]
    rw [BitVec.xor_assoc, BitVec.xor_comm (b >>> 1) crcPoly, ← BitVec.xor_assoc crcPoly,
      BitVec.xor_self, BitVec.zero_xor]

theorem crcShifts_xor (count : Nat) (a b : Crc) :
    crcShifts count (a ^^^ b) = crcShifts count a ^^^ crcShifts count b := by
  induction count generalizing a b with
  | zero => rfl
  | succ count ih => rw [crcShifts, crcShift_xor, ih]; rfl

/-- A shift can be undone: the polynomial's top bit records the bit shifted out. -/
theorem crcShift_injective {a b : Crc} (h : crcShift a = crcShift b) : a = b := by
  have top : ∀ c : Crc, (crcShift c).getLsbD 15 = c.getLsbD 0 := by
    intro c
    unfold crcShift
    cases hc : c.getLsbD 0 <;> simp [crcPoly]
  have low : a.getLsbD 0 = b.getLsbD 0 := by rw [← top a, ← top b, h]
  have shifted : a >>> 1 = b >>> 1 := by
    unfold crcShift at h
    rw [low] at h
    split at h
    · have := congrArg (· ^^^ crcPoly) h
      simpa [BitVec.xor_assoc] using this
    · exact h
  apply BitVec.eq_of_getLsbD_eq
  intro k hk
  cases k with
  | zero => exact low
  | succ k =>
    have := congrArg (fun c : Crc => c.getLsbD k) shifted
    simpa [BitVec.getLsbD_ushiftRight, Nat.add_comm] using this

theorem crcShifts_injective (count : Nat) {a b : Crc} (h : crcShifts count a = crcShifts count b) : a = b := by
  induction count generalizing a b with
  | zero => exact h
  | succ count ih => exact crcShift_injective (ih h)

/-- Distinct running values stay distinct under the same byte. -/
theorem crcUpdate_injective {a b : Crc} (c : Byte) (h : crcUpdate a c = crcUpdate b c) : a = b := by
  have := crcShifts_injective 8 h
  simpa [BitVec.xor_assoc] using congrArg (· ^^^ c.setWidth 16) this

/-- Distinct bytes lead one running value to distinct ones. -/
theorem crcUpdate_byte_injective (a : Crc) {b c : Byte} (h : crcUpdate a b = crcUpdate a c) : b = c := by
  have := crcShifts_injective 8 h
  have hx : b.setWidth 16 = c.setWidth 16 := by
    have := congrArg (a ^^^ ·) this
    simpa [← BitVec.xor_assoc] using this
  have := congrArg (BitVec.setWidth 8) hx
  simpa using this

/-- Distinct running values stay distinct under the same bytes. -/
theorem crcFold_injective (bytes : List Byte) {a b : Crc}
    (h : bytes.foldl crcUpdate a = bytes.foldl crcUpdate b) : a = b := by
  induction bytes generalizing a b with
  | nil => exact h
  | cons c bytes ih => exact crcUpdate_injective c (ih h)

theorem crc16_append (before after : List Byte) :
    crc16 (before ++ after) = after.foldl crcUpdate (crc16 before) := by
  simp [crc16, List.foldl_append]

end Sys2Proof.Machine
end

