-- ==== Sys2Proof/Laws/Decode.lean ====
section
/-! SUPPORT. The fields of a command word, and what the decoder does with each operand format. -/

namespace Sys2Proof

theorem opField_commandWord (op arg : Nibble) : opField (commandWord op arg) = op := by
  revert op arg; decide

theorem argField_commandWord (op arg : Nibble) : argField (commandWord op arg) = arg := by
  revert op arg; decide

/-- A command word is its two fields (rule R81). -/
theorem commandWord_fields (c : Byte) : commandWord (opField c) (argField c) = c := by
  revert c; decide

/-- Mode codes and modes are the same thing (rule R87). -/
theorem modeOfArg_modeCode (m : Mode) : modeOfArg (modeCode m) = some m := by cases m <;> rfl

/-- An `ARG` that names a mode is that mode's code. -/
theorem modeOfArg_eq_some {arg : Nibble} {m : Mode} (h : modeOfArg arg = some m) : arg = modeCode m := by
  revert arg; cases m <;> decide

/-- `LEN` of a well-formed `SEND` is its payload's length (rule R82). -/
theorem payloadLength_toNat {payload : List Byte} (h : payload.length ≤ 255) :
    (BitVec.ofNat 8 payload.length).toNat = payload.length := by
  simp only [BitVec.toNat_ofNat]; omega

/-- What taking a payload answers: `LEN` bytes, and the bytes after them. -/
theorem decodePayload_instr {bytes rest : List Byte} {i : Instr} (h : decodePayload bytes = .instr i rest) :
    ∃ payload, i = .send payload ∧ payload.length ≤ 255 ∧
      bytes = BitVec.ofNat 8 payload.length :: (payload ++ rest) := by
  cases bytes with
  | nil => cases h
  | cons len bytes =>
    rw [decodePayload] at h
    split at h
    · cases h
    · rename_i hle
      cases h
      have hlen : (bytes.take len.toNat).length = len.toNat := by simp; omega
      exact ⟨_, rfl, by have := len.isLt; omega, by simp [hlen]⟩

/-- What taking a header answers: four bytes, and the bytes after them. -/
theorem decodeHeader_instr {bytes rest : List Byte} {i : Instr} (h : decodeHeader bytes = .instr i rest) :
    ∃ dest src ident flags, i = .setHeader dest src ident flags ∧
      bytes = dest :: src :: ident :: flags :: rest := by
  match bytes, h with
  | dest :: src :: ident :: flags :: tail, h => cases h; exact ⟨_, _, _, _, rfl, rfl⟩

end Sys2Proof
end

