-- ==== Sys2Proof/Laws/Memory.lean ====
section
/-! SUPPORT. The laws of the two byte arrays: a read after a write, what a block write leaves alone, and that
every operation keeps the canonical form. -/

namespace Sys2Proof.Machine

@[simp] theorem Memory.read_nil (a : Nat) : Memory.read [] a = none := rfl

theorem Memory.read_write (m : Memory) (a c : Nat) (v : Byte) :
    (m.write a v).read c = if c = a then some v else m.read c := by
  induction m with
  | nil => simp only [Memory.write, Memory.read]; split <;> rename_i h <;> simp [eq_comm] at h ⊢ <;> simp [h]
  | cons cell m ih =>
    obtain ⟨b, w⟩ := cell
    simp only [Memory.write]
    split
    · simp only [Memory.read]; split <;> rename_i h <;> simp [eq_comm] at h ⊢ <;> simp [h]
    · split
      · subst_vars; simp only [Memory.read]; split <;> rename_i h <;> simp [eq_comm] at h ⊢ <;> simp [h]
      · simp only [Memory.read, ih]
        split
        · subst_vars; simp [eq_comm, *]
        · rfl

@[simp] theorem Memory.read_write_same (m : Memory) (a : Nat) (v : Byte) :
    (m.write a v).read a = some v := by simp [Memory.read_write]

theorem Memory.read_write_other (m : Memory) {a c : Nat} (v : Byte) (h : c ≠ a) :
    (m.write a v).read c = m.read c := by simp [Memory.read_write, h]

/-- A block write stores its k-th value k entries above its first index, and leaves every other entry. -/
theorem Memory.read_writeList (m : Memory) (a c : Nat) (vs : List Byte) :
    (m.writeList a vs).read c =
      if a ≤ c ∧ c < a + vs.length then vs[c - a]? else m.read c := by
  induction vs generalizing m a with
  | nil =>
    simp [Memory.writeList]
  | cons v vs ih =>
    rw [Memory.writeList, ih, Memory.read_write]
    by_cases h : c = a
    · subst h; simp
    · by_cases hlt : a + 1 ≤ c ∧ c < a + 1 + vs.length
      · rw [if_pos hlt, if_pos (by simp; omega)]
        obtain ⟨k, rfl⟩ : ∃ k, c = a + 1 + k := ⟨c - (a + 1), by omega⟩
        have h1 : a + 1 + k - (a + 1) = k := by omega
        have h2 : a + 1 + k - a = k + 1 := by omega
        rw [h1, h2, List.getElem?_cons_succ]
      · rw [if_neg hlt, if_neg h, if_neg (by simp; omega)]

theorem Memory.entry_of_read {m : Memory} {free : Nat → Byte} {a : Nat} {v : Byte} (h : m.read a = some v) :
    m.entry free a = v := by simp [Memory.entry, h]

theorem Memory.entry_of_unwritten {m : Memory} {free : Nat → Byte} {a : Nat} (h : m.read a = none) :
    m.entry free a = free a := by simp [Memory.entry, h]

/-- An entry after a write: the value written there, and every other entry as it was. -/
theorem Memory.entry_write (m : Memory) (free : Nat → Byte) (a c : Nat) (v : Byte) :
    (m.write a v).entry free c = if c = a then v else m.entry free c := by
  simp only [Memory.entry, Memory.read_write]; split <;> rfl

theorem Memory.entry_congr {m n : Memory} {a : Nat} (h : m.read a = n.read a) (free : Nat → Byte) :
    m.entry free a = n.entry free a := by simp [Memory.entry, h]

@[simp] theorem Memory.entries_length (m : Memory) (free : Nat → Byte) (count : Nat) :
    (m.entries free count).length = count := by simp [Memory.entries]

theorem Memory.entries_getElem? (m : Memory) (free : Nat → Byte) {count a : Nat} (h : a < count) :
    (m.entries free count)[a]? = some (m.entry free a) := by simp [Memory.entries, h]

/-- A run of entries depends on those entries alone. -/
theorem Memory.entries_congr {m n : Memory} {count : Nat} (h : ∀ a, a < count → m.read a = n.read a)
    (free : Nat → Byte) : m.entries free count = n.entries free count :=
  List.map_congr_left fun a ha => Memory.entry_congr (h a (List.mem_range.mp ha)) free

/-- A run with one more entry. -/
theorem Memory.entries_succ (m : Memory) (free : Nat → Byte) (count : Nat) :
    m.entries free (count + 1) = m.entries free count ++ [m.entry free count] := by
  simp [Memory.entries, List.range_succ]

/-- Writing the entry after a run appends it to the run. -/
theorem Memory.entries_write_end (m : Memory) (free : Nat → Byte) (count : Nat) (v : Byte) :
    (m.write count v).entries free (count + 1) = m.entries free count ++ [v] := by
  rw [Memory.entries_succ, Memory.entry_write, if_pos rfl,
    Memory.entries_congr fun a ha => Memory.read_write_other m v (Nat.ne_of_lt ha)]

/-- Reading `RXB` depends on its entries alone. -/
theorem readRxb_congr {s t : State} {count : Nat} (h : ∀ a, a < count → t.rxb.read a = s.rxb.read a) :
    readRxb t count = readRxb s count := Memory.entries_congr h _

/-- Reading `TXB` depends on that entry alone. -/
theorem readTxb_congr {s t : State} {a : Nat} (h : t.txb.read a = s.txb.read a) : readTxb t a = readTxb s a :=
  Memory.entry_congr h _

theorem Memory.wf_tail {cell : Host.Cell} {m : Memory} (h : Memory.wf (cell :: m) = true) :
    Memory.wf m = true := by
  cases m with
  | nil => rfl
  | cons d m => obtain ⟨b, w⟩ := cell; obtain ⟨c, x⟩ := d; simp [Memory.wf] at h; exact h.2

theorem Memory.wf_cons {a b : Nat} {v w : Byte} {m : Memory} :
    Memory.wf ((a, v) :: (b, w) :: m) = true ↔ a < b ∧ Memory.wf ((b, w) :: m) = true := by
  simp [Memory.wf]

/-- Writing an entry keeps the canonical form. -/
theorem Memory.wf_write (m : Memory) (a : Nat) (v : Byte) (h : m.wf = true) : (m.write a v).wf = true := by
  induction m with
  | nil => rfl
  | cons cell m ih =>
    obtain ⟨b, w⟩ := cell
    have ih' := ih (Memory.wf_tail h)
    simp only [Memory.write]
    split
    · exact Memory.wf_cons.mpr ⟨‹_›, h⟩
    · split
      · subst_vars
        cases m with
        | nil => rfl
        | cons d m => obtain ⟨c, x⟩ := d; exact Memory.wf_cons.mpr (Memory.wf_cons.mp h)
      · cases m with
        | nil => exact Memory.wf_cons.mpr ⟨by omega, rfl⟩
        | cons d m =>
          obtain ⟨c, x⟩ := d
          have hbc := (Memory.wf_cons.mp h).1
          simp only [Memory.write] at ih' ⊢
          split
          · rw [if_pos ‹_›] at ih'; exact Memory.wf_cons.mpr ⟨by omega, ih'⟩
          · rw [if_neg ‹_›] at ih'
            split
            · rw [if_pos ‹_›] at ih'; exact Memory.wf_cons.mpr ⟨by omega, ih'⟩
            · rw [if_neg ‹_›] at ih'; exact Memory.wf_cons.mpr ⟨hbc, ih'⟩

/-- Writing a block keeps the canonical form. -/
theorem Memory.wf_writeList (m : Memory) (a : Nat) (vs : List Byte) (h : m.wf = true) :
    (m.writeList a vs).wf = true := by
  induction vs generalizing m a with
  | nil => exact h
  | cons v vs ih => exact ih _ _ (Memory.wf_write m a v h)

theorem Memory.wf_reset : State.reset.txb.wf = true ∧ State.reset.rxb.wf = true := ⟨rfl, rfl⟩

end Sys2Proof.Machine
end

