-- ==== Sys2Proof/Laws/State.lean ====
section
/-! SUPPORT. What every update of the state does to every field: one lemma per field per update, so that no
later proof unfolds a record update. -/

namespace Sys2Proof.Machine


/-! ### respond -/

@[simp] theorem respond_mode (s : State) (st : Status) (data : List Byte) (out : Option Bool) : (respond s st data out).mode = s.mode := rfl
@[simp] theorem respond_txb (s : State) (st : Status) (data : List Byte) (out : Option Bool) : (respond s st data out).txb = s.txb := rfl
@[simp] theorem respond_txLen (s : State) (st : Status) (data : List Byte) (out : Option Bool) : (respond s st data out).txLen = s.txLen := rfl
@[simp] theorem respond_txBitIndex (s : State) (st : Status) (data : List Byte) (out : Option Bool) : (respond s st data out).txBitIndex = s.txBitIndex := rfl
@[simp] theorem respond_txSample (s : State) (st : Status) (data : List Byte) (out : Option Bool) : (respond s st data out).txSample = s.txSample := rfl
@[simp] theorem respond_txLevel (s : State) (st : Status) (data : List Byte) (out : Option Bool) : (respond s st data out).txLevel = s.txLevel := rfl
@[simp] theorem respond_hdrTo (s : State) (st : Status) (data : List Byte) (out : Option Bool) : (respond s st data out).hdrTo = s.hdrTo := rfl
@[simp] theorem respond_hdrFrom (s : State) (st : Status) (data : List Byte) (out : Option Bool) : (respond s st data out).hdrFrom = s.hdrFrom := rfl
@[simp] theorem respond_hdrId (s : State) (st : Status) (data : List Byte) (out : Option Bool) : (respond s st data out).hdrId = s.hdrId := rfl
@[simp] theorem respond_hdrFlags (s : State) (st : Status) (data : List Byte) (out : Option Bool) : (respond s st data out).hdrFlags = s.hdrFlags := rfl
@[simp] theorem respond_rxRamp (s : State) (st : Status) (data : List Byte) (out : Option Bool) : (respond s st data out).rxRamp = s.rxRamp := rfl
@[simp] theorem respond_rxIntegrator (s : State) (st : Status) (data : List Byte) (out : Option Bool) : (respond s st data out).rxIntegrator = s.rxIntegrator := rfl
@[simp] theorem respond_rxLastSample (s : State) (st : Status) (data : List Byte) (out : Option Bool) : (respond s st data out).rxLastSample = s.rxLastSample := rfl
@[simp] theorem respond_rxWindow (s : State) (st : Status) (data : List Byte) (out : Option Bool) : (respond s st data out).rxWindow = s.rxWindow := rfl
@[simp] theorem respond_rxActive (s : State) (st : Status) (data : List Byte) (out : Option Bool) : (respond s st data out).rxActive = s.rxActive := rfl
@[simp] theorem respond_rxBitCount (s : State) (st : Status) (data : List Byte) (out : Option Bool) : (respond s st data out).rxBitCount = s.rxBitCount := rfl
@[simp] theorem respond_rxb (s : State) (st : Status) (data : List Byte) (out : Option Bool) : (respond s st data out).rxb = s.rxb := rfl
@[simp] theorem respond_rxBufLen (s : State) (st : Status) (data : List Byte) (out : Option Bool) : (respond s st data out).rxBufLen = s.rxBufLen := rfl
@[simp] theorem respond_rxCount (s : State) (st : Status) (data : List Byte) (out : Option Bool) : (respond s st data out).rxCount = s.rxCount := rfl
@[simp] theorem respond_rxGood (s : State) (st : Status) (data : List Byte) (out : Option Bool) : (respond s st data out).rxGood = s.rxGood := rfl
@[simp] theorem respond_tickCount (s : State) (st : Status) (data : List Byte) (out : Option Bool) : (respond s st data out).tickCount = s.tickCount := rfl
@[simp] theorem respond_lastBusy (s : State) (st : Status) (data : List Byte) (out : Option Bool) : (respond s st data out).lastBusy = s.lastBusy := rfl
@[simp] theorem respond_tpb (s : State) (st : Status) (data : List Byte) (out : Option Bool) : (respond s st data out).tpb = s.tpb := rfl
@[simp] theorem respond_cadTimeout (s : State) (st : Status) (data : List Byte) (out : Option Bool) : (respond s st data out).cadTimeout = s.cadTimeout := rfl
@[simp] theorem respond_cadBusySource (s : State) (st : Status) (data : List Byte) (out : Option Bool) : (respond s st data out).cadBusySource = s.cadBusySource := rfl
@[simp] theorem respond_env (s : State) (st : Status) (data : List Byte) (out : Option Bool) : (respond s st data out).env = { s.env with observed := s.env.observed ++ [⟨responseBytes st data, out⟩] } := rfl

/-! ### setPending -/

@[simp] theorem setPending_mode (s : State) (bytes : List Byte) : (setPending s bytes).mode = s.mode := rfl
@[simp] theorem setPending_txb (s : State) (bytes : List Byte) : (setPending s bytes).txb = s.txb := rfl
@[simp] theorem setPending_txLen (s : State) (bytes : List Byte) : (setPending s bytes).txLen = s.txLen := rfl
@[simp] theorem setPending_txBitIndex (s : State) (bytes : List Byte) : (setPending s bytes).txBitIndex = s.txBitIndex := rfl
@[simp] theorem setPending_txSample (s : State) (bytes : List Byte) : (setPending s bytes).txSample = s.txSample := rfl
@[simp] theorem setPending_txLevel (s : State) (bytes : List Byte) : (setPending s bytes).txLevel = s.txLevel := rfl
@[simp] theorem setPending_hdrTo (s : State) (bytes : List Byte) : (setPending s bytes).hdrTo = s.hdrTo := rfl
@[simp] theorem setPending_hdrFrom (s : State) (bytes : List Byte) : (setPending s bytes).hdrFrom = s.hdrFrom := rfl
@[simp] theorem setPending_hdrId (s : State) (bytes : List Byte) : (setPending s bytes).hdrId = s.hdrId := rfl
@[simp] theorem setPending_hdrFlags (s : State) (bytes : List Byte) : (setPending s bytes).hdrFlags = s.hdrFlags := rfl
@[simp] theorem setPending_rxRamp (s : State) (bytes : List Byte) : (setPending s bytes).rxRamp = s.rxRamp := rfl
@[simp] theorem setPending_rxIntegrator (s : State) (bytes : List Byte) : (setPending s bytes).rxIntegrator = s.rxIntegrator := rfl
@[simp] theorem setPending_rxLastSample (s : State) (bytes : List Byte) : (setPending s bytes).rxLastSample = s.rxLastSample := rfl
@[simp] theorem setPending_rxWindow (s : State) (bytes : List Byte) : (setPending s bytes).rxWindow = s.rxWindow := rfl
@[simp] theorem setPending_rxActive (s : State) (bytes : List Byte) : (setPending s bytes).rxActive = s.rxActive := rfl
@[simp] theorem setPending_rxBitCount (s : State) (bytes : List Byte) : (setPending s bytes).rxBitCount = s.rxBitCount := rfl
@[simp] theorem setPending_rxb (s : State) (bytes : List Byte) : (setPending s bytes).rxb = s.rxb := rfl
@[simp] theorem setPending_rxBufLen (s : State) (bytes : List Byte) : (setPending s bytes).rxBufLen = s.rxBufLen := rfl
@[simp] theorem setPending_rxCount (s : State) (bytes : List Byte) : (setPending s bytes).rxCount = s.rxCount := rfl
@[simp] theorem setPending_rxGood (s : State) (bytes : List Byte) : (setPending s bytes).rxGood = s.rxGood := rfl
@[simp] theorem setPending_tickCount (s : State) (bytes : List Byte) : (setPending s bytes).tickCount = s.tickCount := rfl
@[simp] theorem setPending_lastBusy (s : State) (bytes : List Byte) : (setPending s bytes).lastBusy = s.lastBusy := rfl
@[simp] theorem setPending_tpb (s : State) (bytes : List Byte) : (setPending s bytes).tpb = s.tpb := rfl
@[simp] theorem setPending_cadTimeout (s : State) (bytes : List Byte) : (setPending s bytes).cadTimeout = s.cadTimeout := rfl
@[simp] theorem setPending_cadBusySource (s : State) (bytes : List Byte) : (setPending s bytes).cadBusySource = s.cadBusySource := rfl
@[simp] theorem setPending_env (s : State) (bytes : List Byte) : (setPending s bytes).env = { s.env with pending := bytes } := rfl

/-! ### consumeRx -/

@[simp] theorem consumeRx_mode (s : State) : (consumeRx s).mode = s.mode := rfl
@[simp] theorem consumeRx_txb (s : State) : (consumeRx s).txb = s.txb := rfl
@[simp] theorem consumeRx_txLen (s : State) : (consumeRx s).txLen = s.txLen := rfl
@[simp] theorem consumeRx_txBitIndex (s : State) : (consumeRx s).txBitIndex = s.txBitIndex := rfl
@[simp] theorem consumeRx_txSample (s : State) : (consumeRx s).txSample = s.txSample := rfl
@[simp] theorem consumeRx_txLevel (s : State) : (consumeRx s).txLevel = s.txLevel := rfl
@[simp] theorem consumeRx_hdrTo (s : State) : (consumeRx s).hdrTo = s.hdrTo := rfl
@[simp] theorem consumeRx_hdrFrom (s : State) : (consumeRx s).hdrFrom = s.hdrFrom := rfl
@[simp] theorem consumeRx_hdrId (s : State) : (consumeRx s).hdrId = s.hdrId := rfl
@[simp] theorem consumeRx_hdrFlags (s : State) : (consumeRx s).hdrFlags = s.hdrFlags := rfl
@[simp] theorem consumeRx_rxRamp (s : State) : (consumeRx s).rxRamp = s.rxRamp := rfl
@[simp] theorem consumeRx_rxIntegrator (s : State) : (consumeRx s).rxIntegrator = s.rxIntegrator := rfl
@[simp] theorem consumeRx_rxLastSample (s : State) : (consumeRx s).rxLastSample = s.rxLastSample := rfl
@[simp] theorem consumeRx_rxWindow (s : State) : (consumeRx s).rxWindow = s.rxWindow := rfl
@[simp] theorem consumeRx_rxActive (s : State) : (consumeRx s).rxActive = s.rxActive := rfl
@[simp] theorem consumeRx_rxBitCount (s : State) : (consumeRx s).rxBitCount = s.rxBitCount := rfl
@[simp] theorem consumeRx_rxb (s : State) : (consumeRx s).rxb = s.rxb := rfl
@[simp] theorem consumeRx_rxBufLen (s : State) : (consumeRx s).rxBufLen = s.rxBufLen := rfl
@[simp] theorem consumeRx_rxCount (s : State) : (consumeRx s).rxCount = s.rxCount := rfl
@[simp] theorem consumeRx_rxGood (s : State) : (consumeRx s).rxGood = s.rxGood := rfl
@[simp] theorem consumeRx_tickCount (s : State) : (consumeRx s).tickCount = s.tickCount := rfl
@[simp] theorem consumeRx_lastBusy (s : State) : (consumeRx s).lastBusy = s.lastBusy := rfl
@[simp] theorem consumeRx_tpb (s : State) : (consumeRx s).tpb = s.tpb := rfl
@[simp] theorem consumeRx_cadTimeout (s : State) : (consumeRx s).cadTimeout = s.cadTimeout := rfl
@[simp] theorem consumeRx_cadBusySource (s : State) : (consumeRx s).cadBusySource = s.cadBusySource := rfl
@[simp] theorem consumeRx_env (s : State) : (consumeRx s).env = { s.env with rxDraws := s.env.rxDraws.tail, drawCount := s.env.drawCount + 1 } := rfl

/-! ### recordGhost -/

@[simp] theorem recordGhost_mode (s : State) (e : GhostEvent) : (recordGhost s e).mode = s.mode := rfl
@[simp] theorem recordGhost_txb (s : State) (e : GhostEvent) : (recordGhost s e).txb = s.txb := rfl
@[simp] theorem recordGhost_txLen (s : State) (e : GhostEvent) : (recordGhost s e).txLen = s.txLen := rfl
@[simp] theorem recordGhost_txBitIndex (s : State) (e : GhostEvent) : (recordGhost s e).txBitIndex = s.txBitIndex := rfl
@[simp] theorem recordGhost_txSample (s : State) (e : GhostEvent) : (recordGhost s e).txSample = s.txSample := rfl
@[simp] theorem recordGhost_txLevel (s : State) (e : GhostEvent) : (recordGhost s e).txLevel = s.txLevel := rfl
@[simp] theorem recordGhost_hdrTo (s : State) (e : GhostEvent) : (recordGhost s e).hdrTo = s.hdrTo := rfl
@[simp] theorem recordGhost_hdrFrom (s : State) (e : GhostEvent) : (recordGhost s e).hdrFrom = s.hdrFrom := rfl
@[simp] theorem recordGhost_hdrId (s : State) (e : GhostEvent) : (recordGhost s e).hdrId = s.hdrId := rfl
@[simp] theorem recordGhost_hdrFlags (s : State) (e : GhostEvent) : (recordGhost s e).hdrFlags = s.hdrFlags := rfl
@[simp] theorem recordGhost_rxRamp (s : State) (e : GhostEvent) : (recordGhost s e).rxRamp = s.rxRamp := rfl
@[simp] theorem recordGhost_rxIntegrator (s : State) (e : GhostEvent) : (recordGhost s e).rxIntegrator = s.rxIntegrator := rfl
@[simp] theorem recordGhost_rxLastSample (s : State) (e : GhostEvent) : (recordGhost s e).rxLastSample = s.rxLastSample := rfl
@[simp] theorem recordGhost_rxWindow (s : State) (e : GhostEvent) : (recordGhost s e).rxWindow = s.rxWindow := rfl
@[simp] theorem recordGhost_rxActive (s : State) (e : GhostEvent) : (recordGhost s e).rxActive = s.rxActive := rfl
@[simp] theorem recordGhost_rxBitCount (s : State) (e : GhostEvent) : (recordGhost s e).rxBitCount = s.rxBitCount := rfl
@[simp] theorem recordGhost_rxb (s : State) (e : GhostEvent) : (recordGhost s e).rxb = s.rxb := rfl
@[simp] theorem recordGhost_rxBufLen (s : State) (e : GhostEvent) : (recordGhost s e).rxBufLen = s.rxBufLen := rfl
@[simp] theorem recordGhost_rxCount (s : State) (e : GhostEvent) : (recordGhost s e).rxCount = s.rxCount := rfl
@[simp] theorem recordGhost_rxGood (s : State) (e : GhostEvent) : (recordGhost s e).rxGood = s.rxGood := rfl
@[simp] theorem recordGhost_tickCount (s : State) (e : GhostEvent) : (recordGhost s e).tickCount = s.tickCount := rfl
@[simp] theorem recordGhost_lastBusy (s : State) (e : GhostEvent) : (recordGhost s e).lastBusy = s.lastBusy := rfl
@[simp] theorem recordGhost_tpb (s : State) (e : GhostEvent) : (recordGhost s e).tpb = s.tpb := rfl
@[simp] theorem recordGhost_cadTimeout (s : State) (e : GhostEvent) : (recordGhost s e).cadTimeout = s.cadTimeout := rfl
@[simp] theorem recordGhost_cadBusySource (s : State) (e : GhostEvent) : (recordGhost s e).cadBusySource = s.cadBusySource := rfl
@[simp] theorem recordGhost_env (s : State) (e : GhostEvent) : (recordGhost s e).env = { s.env with ghost := s.env.ghost ++ [(s.tickCount, e)] } := rfl

/-! ### abort -/

@[simp] theorem abort_mode (s : State) (r : AbortReason) : (abort s r).mode = s.mode := rfl
@[simp] theorem abort_txb (s : State) (r : AbortReason) : (abort s r).txb = s.txb := rfl
@[simp] theorem abort_txLen (s : State) (r : AbortReason) : (abort s r).txLen = s.txLen := rfl
@[simp] theorem abort_txBitIndex (s : State) (r : AbortReason) : (abort s r).txBitIndex = s.txBitIndex := rfl
@[simp] theorem abort_txSample (s : State) (r : AbortReason) : (abort s r).txSample = s.txSample := rfl
@[simp] theorem abort_txLevel (s : State) (r : AbortReason) : (abort s r).txLevel = s.txLevel := rfl
@[simp] theorem abort_hdrTo (s : State) (r : AbortReason) : (abort s r).hdrTo = s.hdrTo := rfl
@[simp] theorem abort_hdrFrom (s : State) (r : AbortReason) : (abort s r).hdrFrom = s.hdrFrom := rfl
@[simp] theorem abort_hdrId (s : State) (r : AbortReason) : (abort s r).hdrId = s.hdrId := rfl
@[simp] theorem abort_hdrFlags (s : State) (r : AbortReason) : (abort s r).hdrFlags = s.hdrFlags := rfl
@[simp] theorem abort_rxRamp (s : State) (r : AbortReason) : (abort s r).rxRamp = s.rxRamp := rfl
@[simp] theorem abort_rxIntegrator (s : State) (r : AbortReason) : (abort s r).rxIntegrator = s.rxIntegrator := rfl
@[simp] theorem abort_rxLastSample (s : State) (r : AbortReason) : (abort s r).rxLastSample = s.rxLastSample := rfl
@[simp] theorem abort_rxWindow (s : State) (r : AbortReason) : (abort s r).rxWindow = s.rxWindow := rfl
@[simp] theorem abort_rxActive (s : State) (r : AbortReason) : (abort s r).rxActive = false := rfl
@[simp] theorem abort_rxBitCount (s : State) (r : AbortReason) : (abort s r).rxBitCount = 0 := rfl
@[simp] theorem abort_rxb (s : State) (r : AbortReason) : (abort s r).rxb = s.rxb := rfl
@[simp] theorem abort_rxBufLen (s : State) (r : AbortReason) : (abort s r).rxBufLen = 0 := rfl
@[simp] theorem abort_rxCount (s : State) (r : AbortReason) : (abort s r).rxCount = 0 := rfl
@[simp] theorem abort_rxGood (s : State) (r : AbortReason) : (abort s r).rxGood = s.rxGood := rfl
@[simp] theorem abort_tickCount (s : State) (r : AbortReason) : (abort s r).tickCount = s.tickCount := rfl
@[simp] theorem abort_lastBusy (s : State) (r : AbortReason) : (abort s r).lastBusy = s.lastBusy := rfl
@[simp] theorem abort_tpb (s : State) (r : AbortReason) : (abort s r).tpb = s.tpb := rfl
@[simp] theorem abort_cadTimeout (s : State) (r : AbortReason) : (abort s r).cadTimeout = s.cadTimeout := rfl
@[simp] theorem abort_cadBusySource (s : State) (r : AbortReason) : (abort s r).cadBusySource = s.cadBusySource := rfl
@[simp] theorem abort_env (s : State) (r : AbortReason) : (abort s r).env = { s.env with ghost := s.env.ghost ++ [(s.tickCount, .aborted r)] } := rfl

/-! ### pllReset -/

@[simp] theorem pllReset_mode (s : State) : (pllReset s).mode = s.mode := rfl
@[simp] theorem pllReset_txb (s : State) : (pllReset s).txb = s.txb := rfl
@[simp] theorem pllReset_txLen (s : State) : (pllReset s).txLen = s.txLen := rfl
@[simp] theorem pllReset_txBitIndex (s : State) : (pllReset s).txBitIndex = s.txBitIndex := rfl
@[simp] theorem pllReset_txSample (s : State) : (pllReset s).txSample = s.txSample := rfl
@[simp] theorem pllReset_txLevel (s : State) : (pllReset s).txLevel = s.txLevel := rfl
@[simp] theorem pllReset_hdrTo (s : State) : (pllReset s).hdrTo = s.hdrTo := rfl
@[simp] theorem pllReset_hdrFrom (s : State) : (pllReset s).hdrFrom = s.hdrFrom := rfl
@[simp] theorem pllReset_hdrId (s : State) : (pllReset s).hdrId = s.hdrId := rfl
@[simp] theorem pllReset_hdrFlags (s : State) : (pllReset s).hdrFlags = s.hdrFlags := rfl
@[simp] theorem pllReset_rxRamp (s : State) : (pllReset s).rxRamp = 0 := rfl
@[simp] theorem pllReset_rxIntegrator (s : State) : (pllReset s).rxIntegrator = 0 := rfl
@[simp] theorem pllReset_rxLastSample (s : State) : (pllReset s).rxLastSample = false := rfl
@[simp] theorem pllReset_rxWindow (s : State) : (pllReset s).rxWindow = 0 := rfl
@[simp] theorem pllReset_rxActive (s : State) : (pllReset s).rxActive = false := rfl
@[simp] theorem pllReset_rxBitCount (s : State) : (pllReset s).rxBitCount = 0 := rfl
@[simp] theorem pllReset_rxb (s : State) : (pllReset s).rxb = s.rxb := rfl
@[simp] theorem pllReset_rxBufLen (s : State) : (pllReset s).rxBufLen = if s.rxGood then s.rxBufLen else 0 := rfl
@[simp] theorem pllReset_rxCount (s : State) : (pllReset s).rxCount = if s.rxGood then s.rxCount else 0 := rfl
@[simp] theorem pllReset_rxGood (s : State) : (pllReset s).rxGood = s.rxGood := rfl
@[simp] theorem pllReset_tickCount (s : State) : (pllReset s).tickCount = s.tickCount := rfl
@[simp] theorem pllReset_lastBusy (s : State) : (pllReset s).lastBusy = s.lastBusy := rfl
@[simp] theorem pllReset_tpb (s : State) : (pllReset s).tpb = s.tpb := rfl
@[simp] theorem pllReset_cadTimeout (s : State) : (pllReset s).cadTimeout = s.cadTimeout := rfl
@[simp] theorem pllReset_cadBusySource (s : State) : (pllReset s).cadBusySource = s.cadBusySource := rfl
@[simp] theorem pllReset_env (s : State) : (pllReset s).env = s.env := rfl

/-! ### countTick -/

@[simp] theorem countTick_mode (s : State) : (countTick s).mode = s.mode := rfl
@[simp] theorem countTick_txb (s : State) : (countTick s).txb = s.txb := rfl
@[simp] theorem countTick_txLen (s : State) : (countTick s).txLen = s.txLen := rfl
@[simp] theorem countTick_txBitIndex (s : State) : (countTick s).txBitIndex = s.txBitIndex := rfl
@[simp] theorem countTick_txSample (s : State) : (countTick s).txSample = s.txSample := rfl
@[simp] theorem countTick_txLevel (s : State) : (countTick s).txLevel = s.txLevel := rfl
@[simp] theorem countTick_hdrTo (s : State) : (countTick s).hdrTo = s.hdrTo := rfl
@[simp] theorem countTick_hdrFrom (s : State) : (countTick s).hdrFrom = s.hdrFrom := rfl
@[simp] theorem countTick_hdrId (s : State) : (countTick s).hdrId = s.hdrId := rfl
@[simp] theorem countTick_hdrFlags (s : State) : (countTick s).hdrFlags = s.hdrFlags := rfl
@[simp] theorem countTick_rxRamp (s : State) : (countTick s).rxRamp = s.rxRamp := rfl
@[simp] theorem countTick_rxIntegrator (s : State) : (countTick s).rxIntegrator = s.rxIntegrator := rfl
@[simp] theorem countTick_rxLastSample (s : State) : (countTick s).rxLastSample = s.rxLastSample := rfl
@[simp] theorem countTick_rxWindow (s : State) : (countTick s).rxWindow = s.rxWindow := rfl
@[simp] theorem countTick_rxActive (s : State) : (countTick s).rxActive = s.rxActive := rfl
@[simp] theorem countTick_rxBitCount (s : State) : (countTick s).rxBitCount = s.rxBitCount := rfl
@[simp] theorem countTick_rxb (s : State) : (countTick s).rxb = s.rxb := rfl
@[simp] theorem countTick_rxBufLen (s : State) : (countTick s).rxBufLen = s.rxBufLen := rfl
@[simp] theorem countTick_rxCount (s : State) : (countTick s).rxCount = s.rxCount := rfl
@[simp] theorem countTick_rxGood (s : State) : (countTick s).rxGood = s.rxGood := rfl
@[simp] theorem countTick_tickCount (s : State) : (countTick s).tickCount = s.tickCount + 1 := rfl
@[simp] theorem countTick_lastBusy (s : State) : (countTick s).lastBusy = s.lastBusy := rfl
@[simp] theorem countTick_tpb (s : State) : (countTick s).tpb = s.tpb := rfl
@[simp] theorem countTick_cadTimeout (s : State) : (countTick s).cadTimeout = s.cadTimeout := rfl
@[simp] theorem countTick_cadBusySource (s : State) : (countTick s).cadBusySource = s.cadBusySource := rfl
@[simp] theorem countTick_env (s : State) : (countTick s).env = s.env := rfl

/-! ### nextTxSample -/

@[simp] theorem nextTxSample_mode (s : State) : (nextTxSample s).mode = s.mode := rfl
@[simp] theorem nextTxSample_txb (s : State) : (nextTxSample s).txb = s.txb := rfl
@[simp] theorem nextTxSample_txLen (s : State) : (nextTxSample s).txLen = s.txLen := rfl
@[simp] theorem nextTxSample_txBitIndex (s : State) : (nextTxSample s).txBitIndex = s.txBitIndex := rfl
@[simp] theorem nextTxSample_txSample (s : State) : (nextTxSample s).txSample = (s.txSample + 1) % s.tpb := rfl
@[simp] theorem nextTxSample_txLevel (s : State) : (nextTxSample s).txLevel = s.txLevel := rfl
@[simp] theorem nextTxSample_hdrTo (s : State) : (nextTxSample s).hdrTo = s.hdrTo := rfl
@[simp] theorem nextTxSample_hdrFrom (s : State) : (nextTxSample s).hdrFrom = s.hdrFrom := rfl
@[simp] theorem nextTxSample_hdrId (s : State) : (nextTxSample s).hdrId = s.hdrId := rfl
@[simp] theorem nextTxSample_hdrFlags (s : State) : (nextTxSample s).hdrFlags = s.hdrFlags := rfl
@[simp] theorem nextTxSample_rxRamp (s : State) : (nextTxSample s).rxRamp = s.rxRamp := rfl
@[simp] theorem nextTxSample_rxIntegrator (s : State) : (nextTxSample s).rxIntegrator = s.rxIntegrator := rfl
@[simp] theorem nextTxSample_rxLastSample (s : State) : (nextTxSample s).rxLastSample = s.rxLastSample := rfl
@[simp] theorem nextTxSample_rxWindow (s : State) : (nextTxSample s).rxWindow = s.rxWindow := rfl
@[simp] theorem nextTxSample_rxActive (s : State) : (nextTxSample s).rxActive = s.rxActive := rfl
@[simp] theorem nextTxSample_rxBitCount (s : State) : (nextTxSample s).rxBitCount = s.rxBitCount := rfl
@[simp] theorem nextTxSample_rxb (s : State) : (nextTxSample s).rxb = s.rxb := rfl
@[simp] theorem nextTxSample_rxBufLen (s : State) : (nextTxSample s).rxBufLen = s.rxBufLen := rfl
@[simp] theorem nextTxSample_rxCount (s : State) : (nextTxSample s).rxCount = s.rxCount := rfl
@[simp] theorem nextTxSample_rxGood (s : State) : (nextTxSample s).rxGood = s.rxGood := rfl
@[simp] theorem nextTxSample_tickCount (s : State) : (nextTxSample s).tickCount = s.tickCount := rfl
@[simp] theorem nextTxSample_lastBusy (s : State) : (nextTxSample s).lastBusy = s.lastBusy := rfl
@[simp] theorem nextTxSample_tpb (s : State) : (nextTxSample s).tpb = s.tpb := rfl
@[simp] theorem nextTxSample_cadTimeout (s : State) : (nextTxSample s).cadTimeout = s.cadTimeout := rfl
@[simp] theorem nextTxSample_cadBusySource (s : State) : (nextTxSample s).cadBusySource = s.cadBusySource := rfl
@[simp] theorem nextTxSample_env (s : State) : (nextTxSample s).env = s.env := rfl

/-! ### startSend -/

@[simp] theorem startSend_mode (p : List Byte) (s : State) : (startSend p s).mode = .tx := by simp only [startSend]
@[simp] theorem startSend_txb (p : List Byte) (s : State) : (startSend p s).txb = s.txb.writeList 0 (txEntries s p) := by simp only [startSend]
@[simp] theorem startSend_txLen (p : List Byte) (s : State) : (startSend p s).txLen = 10 + 2 * (minFrameLen + p.length) := by simp only [startSend]
@[simp] theorem startSend_txBitIndex (p : List Byte) (s : State) : (startSend p s).txBitIndex = 0 := by simp only [startSend]
@[simp] theorem startSend_txSample (p : List Byte) (s : State) : (startSend p s).txSample = 0 := by simp only [startSend]
@[simp] theorem startSend_txLevel (p : List Byte) (s : State) : (startSend p s).txLevel = s.txLevel := by simp only [startSend]
@[simp] theorem startSend_hdrTo (p : List Byte) (s : State) : (startSend p s).hdrTo = s.hdrTo := by simp only [startSend]
@[simp] theorem startSend_hdrFrom (p : List Byte) (s : State) : (startSend p s).hdrFrom = s.hdrFrom := by simp only [startSend]
@[simp] theorem startSend_hdrId (p : List Byte) (s : State) : (startSend p s).hdrId = s.hdrId := by simp only [startSend]
@[simp] theorem startSend_hdrFlags (p : List Byte) (s : State) : (startSend p s).hdrFlags = s.hdrFlags := by simp only [startSend]
@[simp] theorem startSend_rxRamp (p : List Byte) (s : State) : (startSend p s).rxRamp = s.rxRamp := by simp only [startSend]
@[simp] theorem startSend_rxIntegrator (p : List Byte) (s : State) : (startSend p s).rxIntegrator = s.rxIntegrator := by simp only [startSend]
@[simp] theorem startSend_rxLastSample (p : List Byte) (s : State) : (startSend p s).rxLastSample = s.rxLastSample := by simp only [startSend]
@[simp] theorem startSend_rxWindow (p : List Byte) (s : State) : (startSend p s).rxWindow = s.rxWindow := by simp only [startSend]
@[simp] theorem startSend_rxActive (p : List Byte) (s : State) : (startSend p s).rxActive = s.rxActive := by simp only [startSend]
@[simp] theorem startSend_rxBitCount (p : List Byte) (s : State) : (startSend p s).rxBitCount = s.rxBitCount := by simp only [startSend]
@[simp] theorem startSend_rxb (p : List Byte) (s : State) : (startSend p s).rxb = s.rxb := by simp only [startSend]
@[simp] theorem startSend_rxBufLen (p : List Byte) (s : State) : (startSend p s).rxBufLen = s.rxBufLen := by simp only [startSend]
@[simp] theorem startSend_rxCount (p : List Byte) (s : State) : (startSend p s).rxCount = s.rxCount := by simp only [startSend]
@[simp] theorem startSend_rxGood (p : List Byte) (s : State) : (startSend p s).rxGood = s.rxGood := by simp only [startSend]
@[simp] theorem startSend_tickCount (p : List Byte) (s : State) : (startSend p s).tickCount = s.tickCount := by simp only [startSend]
@[simp] theorem startSend_lastBusy (p : List Byte) (s : State) : (startSend p s).lastBusy = s.lastBusy := by simp only [startSend]
@[simp] theorem startSend_tpb (p : List Byte) (s : State) : (startSend p s).tpb = s.tpb := by simp only [startSend]
@[simp] theorem startSend_cadTimeout (p : List Byte) (s : State) : (startSend p s).cadTimeout = s.cadTimeout := by simp only [startSend]
@[simp] theorem startSend_cadBusySource (p : List Byte) (s : State) : (startSend p s).cadBusySource = s.cadBusySource := by simp only [startSend]
@[simp] theorem startSend_env (p : List Byte) (s : State) : (startSend p s).env = s.env := by simp only [startSend]

/-! ### bitOut -/

@[simp] theorem bitOut_mode (s : State) (level : Bool) : (bitOut s level).mode = s.mode := by simp only [bitOut]
@[simp] theorem bitOut_txb (s : State) (level : Bool) : (bitOut s level).txb = s.txb := by simp only [bitOut]
@[simp] theorem bitOut_txLen (s : State) (level : Bool) : (bitOut s level).txLen = s.txLen := by simp only [bitOut]
@[simp] theorem bitOut_txBitIndex (s : State) (level : Bool) : (bitOut s level).txBitIndex = s.txBitIndex := by simp only [bitOut]
@[simp] theorem bitOut_txSample (s : State) (level : Bool) : (bitOut s level).txSample = s.txSample := by simp only [bitOut]
@[simp] theorem bitOut_txLevel (s : State) (level : Bool) : (bitOut s level).txLevel = s.txLevel := by simp only [bitOut]
@[simp] theorem bitOut_hdrTo (s : State) (level : Bool) : (bitOut s level).hdrTo = s.hdrTo := by simp only [bitOut]
@[simp] theorem bitOut_hdrFrom (s : State) (level : Bool) : (bitOut s level).hdrFrom = s.hdrFrom := by simp only [bitOut]
@[simp] theorem bitOut_hdrId (s : State) (level : Bool) : (bitOut s level).hdrId = s.hdrId := by simp only [bitOut]
@[simp] theorem bitOut_hdrFlags (s : State) (level : Bool) : (bitOut s level).hdrFlags = s.hdrFlags := by simp only [bitOut]
@[simp] theorem bitOut_rxRamp (s : State) (level : Bool) : (bitOut s level).rxRamp = rampSum s level - rampLen := by simp only [bitOut]
@[simp] theorem bitOut_rxIntegrator (s : State) (level : Bool) : (bitOut s level).rxIntegrator = 0 := by simp only [bitOut]
@[simp] theorem bitOut_rxLastSample (s : State) (level : Bool) : (bitOut s level).rxLastSample = level := by simp only [bitOut]
@[simp] theorem bitOut_rxWindow (s : State) (level : Bool) : (bitOut s level).rxWindow = shiftWindow s.rxWindow (slice s.tpb (integrated s level)) := by simp only [bitOut]
@[simp] theorem bitOut_rxActive (s : State) (level : Bool) : (bitOut s level).rxActive = s.rxActive := by simp only [bitOut]
@[simp] theorem bitOut_rxBitCount (s : State) (level : Bool) : (bitOut s level).rxBitCount = s.rxBitCount := by simp only [bitOut]
@[simp] theorem bitOut_rxb (s : State) (level : Bool) : (bitOut s level).rxb = s.rxb := by simp only [bitOut]
@[simp] theorem bitOut_rxBufLen (s : State) (level : Bool) : (bitOut s level).rxBufLen = s.rxBufLen := by simp only [bitOut]
@[simp] theorem bitOut_rxCount (s : State) (level : Bool) : (bitOut s level).rxCount = s.rxCount := by simp only [bitOut]
@[simp] theorem bitOut_rxGood (s : State) (level : Bool) : (bitOut s level).rxGood = s.rxGood := by simp only [bitOut]
@[simp] theorem bitOut_tickCount (s : State) (level : Bool) : (bitOut s level).tickCount = s.tickCount := by simp only [bitOut]
@[simp] theorem bitOut_lastBusy (s : State) (level : Bool) : (bitOut s level).lastBusy = s.lastBusy := by simp only [bitOut]
@[simp] theorem bitOut_tpb (s : State) (level : Bool) : (bitOut s level).tpb = s.tpb := by simp only [bitOut]
@[simp] theorem bitOut_cadTimeout (s : State) (level : Bool) : (bitOut s level).cadTimeout = s.cadTimeout := by simp only [bitOut]
@[simp] theorem bitOut_cadBusySource (s : State) (level : Bool) : (bitOut s level).cadBusySource = s.cadBusySource := by simp only [bitOut]
@[simp] theorem bitOut_env (s : State) (level : Bool) : (bitOut s level).env = s.env := by simp only [bitOut]

/-! ### withinBit -/

@[simp] theorem withinBit_mode (s : State) (level : Bool) : (withinBit s level).mode = s.mode := by simp only [withinBit]
@[simp] theorem withinBit_txb (s : State) (level : Bool) : (withinBit s level).txb = s.txb := by simp only [withinBit]
@[simp] theorem withinBit_txLen (s : State) (level : Bool) : (withinBit s level).txLen = s.txLen := by simp only [withinBit]
@[simp] theorem withinBit_txBitIndex (s : State) (level : Bool) : (withinBit s level).txBitIndex = s.txBitIndex := by simp only [withinBit]
@[simp] theorem withinBit_txSample (s : State) (level : Bool) : (withinBit s level).txSample = s.txSample := by simp only [withinBit]
@[simp] theorem withinBit_txLevel (s : State) (level : Bool) : (withinBit s level).txLevel = s.txLevel := by simp only [withinBit]
@[simp] theorem withinBit_hdrTo (s : State) (level : Bool) : (withinBit s level).hdrTo = s.hdrTo := by simp only [withinBit]
@[simp] theorem withinBit_hdrFrom (s : State) (level : Bool) : (withinBit s level).hdrFrom = s.hdrFrom := by simp only [withinBit]
@[simp] theorem withinBit_hdrId (s : State) (level : Bool) : (withinBit s level).hdrId = s.hdrId := by simp only [withinBit]
@[simp] theorem withinBit_hdrFlags (s : State) (level : Bool) : (withinBit s level).hdrFlags = s.hdrFlags := by simp only [withinBit]
@[simp] theorem withinBit_rxRamp (s : State) (level : Bool) : (withinBit s level).rxRamp = rampSum s level := by simp only [withinBit]
@[simp] theorem withinBit_rxIntegrator (s : State) (level : Bool) : (withinBit s level).rxIntegrator = integrated s level := by simp only [withinBit]
@[simp] theorem withinBit_rxLastSample (s : State) (level : Bool) : (withinBit s level).rxLastSample = level := by simp only [withinBit]
@[simp] theorem withinBit_rxWindow (s : State) (level : Bool) : (withinBit s level).rxWindow = s.rxWindow := by simp only [withinBit]
@[simp] theorem withinBit_rxActive (s : State) (level : Bool) : (withinBit s level).rxActive = s.rxActive := by simp only [withinBit]
@[simp] theorem withinBit_rxBitCount (s : State) (level : Bool) : (withinBit s level).rxBitCount = s.rxBitCount := by simp only [withinBit]
@[simp] theorem withinBit_rxb (s : State) (level : Bool) : (withinBit s level).rxb = s.rxb := by simp only [withinBit]
@[simp] theorem withinBit_rxBufLen (s : State) (level : Bool) : (withinBit s level).rxBufLen = s.rxBufLen := by simp only [withinBit]
@[simp] theorem withinBit_rxCount (s : State) (level : Bool) : (withinBit s level).rxCount = s.rxCount := by simp only [withinBit]
@[simp] theorem withinBit_rxGood (s : State) (level : Bool) : (withinBit s level).rxGood = s.rxGood := by simp only [withinBit]
@[simp] theorem withinBit_tickCount (s : State) (level : Bool) : (withinBit s level).tickCount = s.tickCount := by simp only [withinBit]
@[simp] theorem withinBit_lastBusy (s : State) (level : Bool) : (withinBit s level).lastBusy = s.lastBusy := by simp only [withinBit]
@[simp] theorem withinBit_tpb (s : State) (level : Bool) : (withinBit s level).tpb = s.tpb := by simp only [withinBit]
@[simp] theorem withinBit_cadTimeout (s : State) (level : Bool) : (withinBit s level).cadTimeout = s.cadTimeout := by simp only [withinBit]
@[simp] theorem withinBit_cadBusySource (s : State) (level : Bool) : (withinBit s level).cadBusySource = s.cadBusySource := by simp only [withinBit]
@[simp] theorem withinBit_env (s : State) (level : Bool) : (withinBit s level).env = s.env := by simp only [withinBit]

/-! ### answerTick -/

@[simp] theorem answerTick_mode (s : State) : (answerTick s).mode = s.mode := rfl
@[simp] theorem answerTick_txb (s : State) : (answerTick s).txb = s.txb := rfl
@[simp] theorem answerTick_txLen (s : State) : (answerTick s).txLen = s.txLen := rfl
@[simp] theorem answerTick_txBitIndex (s : State) : (answerTick s).txBitIndex = s.txBitIndex := rfl
@[simp] theorem answerTick_txSample (s : State) : (answerTick s).txSample = s.txSample := rfl
@[simp] theorem answerTick_txLevel (s : State) : (answerTick s).txLevel = s.txLevel := rfl
@[simp] theorem answerTick_hdrTo (s : State) : (answerTick s).hdrTo = s.hdrTo := rfl
@[simp] theorem answerTick_hdrFrom (s : State) : (answerTick s).hdrFrom = s.hdrFrom := rfl
@[simp] theorem answerTick_hdrId (s : State) : (answerTick s).hdrId = s.hdrId := rfl
@[simp] theorem answerTick_hdrFlags (s : State) : (answerTick s).hdrFlags = s.hdrFlags := rfl
@[simp] theorem answerTick_rxRamp (s : State) : (answerTick s).rxRamp = s.rxRamp := rfl
@[simp] theorem answerTick_rxIntegrator (s : State) : (answerTick s).rxIntegrator = s.rxIntegrator := rfl
@[simp] theorem answerTick_rxLastSample (s : State) : (answerTick s).rxLastSample = s.rxLastSample := rfl
@[simp] theorem answerTick_rxWindow (s : State) : (answerTick s).rxWindow = s.rxWindow := rfl
@[simp] theorem answerTick_rxActive (s : State) : (answerTick s).rxActive = s.rxActive := rfl
@[simp] theorem answerTick_rxBitCount (s : State) : (answerTick s).rxBitCount = s.rxBitCount := rfl
@[simp] theorem answerTick_rxb (s : State) : (answerTick s).rxb = s.rxb := rfl
@[simp] theorem answerTick_rxBufLen (s : State) : (answerTick s).rxBufLen = s.rxBufLen := rfl
@[simp] theorem answerTick_rxCount (s : State) : (answerTick s).rxCount = s.rxCount := rfl
@[simp] theorem answerTick_rxGood (s : State) : (answerTick s).rxGood = s.rxGood := rfl
@[simp] theorem answerTick_tickCount (s : State) : (answerTick s).tickCount = s.tickCount := rfl
@[simp] theorem answerTick_lastBusy (s : State) : (answerTick s).lastBusy = s.lastBusy := rfl
@[simp] theorem answerTick_tpb (s : State) : (answerTick s).tpb = s.tpb := rfl
@[simp] theorem answerTick_cadTimeout (s : State) : (answerTick s).cadTimeout = s.cadTimeout := rfl
@[simp] theorem answerTick_cadBusySource (s : State) : (answerTick s).cadBusySource = s.cadBusySource := rfl
@[simp] theorem answerTick_env (s : State) : (answerTick s).env = { s.env with observed := s.env.observed ++ [⟨[0x00], some s.txLevel⟩] } := rfl

/-! ### emitBit -/

@[simp] theorem emitBit_mode (s : State) : (emitBit s).mode = s.mode := rfl
@[simp] theorem emitBit_txb (s : State) : (emitBit s).txb = s.txb := rfl
@[simp] theorem emitBit_txLen (s : State) : (emitBit s).txLen = s.txLen := rfl
@[simp] theorem emitBit_txBitIndex (s : State) : (emitBit s).txBitIndex = s.txBitIndex + 1 := rfl
@[simp] theorem emitBit_txSample (s : State) : (emitBit s).txSample = s.txSample := rfl
@[simp] theorem emitBit_txLevel (s : State) : (emitBit s).txLevel = entryBit (readTxb s (s.txBitIndex / 6)) s.txBitIndex := rfl
@[simp] theorem emitBit_hdrTo (s : State) : (emitBit s).hdrTo = s.hdrTo := rfl
@[simp] theorem emitBit_hdrFrom (s : State) : (emitBit s).hdrFrom = s.hdrFrom := rfl
@[simp] theorem emitBit_hdrId (s : State) : (emitBit s).hdrId = s.hdrId := rfl
@[simp] theorem emitBit_hdrFlags (s : State) : (emitBit s).hdrFlags = s.hdrFlags := rfl
@[simp] theorem emitBit_rxRamp (s : State) : (emitBit s).rxRamp = s.rxRamp := rfl
@[simp] theorem emitBit_rxIntegrator (s : State) : (emitBit s).rxIntegrator = s.rxIntegrator := rfl
@[simp] theorem emitBit_rxLastSample (s : State) : (emitBit s).rxLastSample = s.rxLastSample := rfl
@[simp] theorem emitBit_rxWindow (s : State) : (emitBit s).rxWindow = s.rxWindow := rfl
@[simp] theorem emitBit_rxActive (s : State) : (emitBit s).rxActive = s.rxActive := rfl
@[simp] theorem emitBit_rxBitCount (s : State) : (emitBit s).rxBitCount = s.rxBitCount := rfl
@[simp] theorem emitBit_rxb (s : State) : (emitBit s).rxb = s.rxb := rfl
@[simp] theorem emitBit_rxBufLen (s : State) : (emitBit s).rxBufLen = s.rxBufLen := rfl
@[simp] theorem emitBit_rxCount (s : State) : (emitBit s).rxCount = s.rxCount := rfl
@[simp] theorem emitBit_rxGood (s : State) : (emitBit s).rxGood = s.rxGood := rfl
@[simp] theorem emitBit_tickCount (s : State) : (emitBit s).tickCount = s.tickCount := rfl
@[simp] theorem emitBit_lastBusy (s : State) : (emitBit s).lastBusy = s.lastBusy := rfl
@[simp] theorem emitBit_tpb (s : State) : (emitBit s).tpb = s.tpb := rfl
@[simp] theorem emitBit_cadTimeout (s : State) : (emitBit s).cadTimeout = s.cadTimeout := rfl
@[simp] theorem emitBit_cadBusySource (s : State) : (emitBit s).cadBusySource = s.cadBusySource := rfl
@[simp] theorem emitBit_env (s : State) : (emitBit s).env = s.env := rfl

/-! ### clearDelivered -/

@[simp] theorem clearDelivered_mode (s : State) : (clearDelivered s).mode = s.mode := rfl
@[simp] theorem clearDelivered_txb (s : State) : (clearDelivered s).txb = s.txb := rfl
@[simp] theorem clearDelivered_txLen (s : State) : (clearDelivered s).txLen = s.txLen := rfl
@[simp] theorem clearDelivered_txBitIndex (s : State) : (clearDelivered s).txBitIndex = s.txBitIndex := rfl
@[simp] theorem clearDelivered_txSample (s : State) : (clearDelivered s).txSample = s.txSample := rfl
@[simp] theorem clearDelivered_txLevel (s : State) : (clearDelivered s).txLevel = s.txLevel := rfl
@[simp] theorem clearDelivered_hdrTo (s : State) : (clearDelivered s).hdrTo = s.hdrTo := rfl
@[simp] theorem clearDelivered_hdrFrom (s : State) : (clearDelivered s).hdrFrom = s.hdrFrom := rfl
@[simp] theorem clearDelivered_hdrId (s : State) : (clearDelivered s).hdrId = s.hdrId := rfl
@[simp] theorem clearDelivered_hdrFlags (s : State) : (clearDelivered s).hdrFlags = s.hdrFlags := rfl
@[simp] theorem clearDelivered_rxRamp (s : State) : (clearDelivered s).rxRamp = s.rxRamp := rfl
@[simp] theorem clearDelivered_rxIntegrator (s : State) : (clearDelivered s).rxIntegrator = s.rxIntegrator := rfl
@[simp] theorem clearDelivered_rxLastSample (s : State) : (clearDelivered s).rxLastSample = s.rxLastSample := rfl
@[simp] theorem clearDelivered_rxWindow (s : State) : (clearDelivered s).rxWindow = s.rxWindow := rfl
@[simp] theorem clearDelivered_rxActive (s : State) : (clearDelivered s).rxActive = s.rxActive := rfl
@[simp] theorem clearDelivered_rxBitCount (s : State) : (clearDelivered s).rxBitCount = s.rxBitCount := rfl
@[simp] theorem clearDelivered_rxb (s : State) : (clearDelivered s).rxb = s.rxb := rfl
@[simp] theorem clearDelivered_rxBufLen (s : State) : (clearDelivered s).rxBufLen = 0 := rfl
@[simp] theorem clearDelivered_rxCount (s : State) : (clearDelivered s).rxCount = 0 := rfl
@[simp] theorem clearDelivered_rxGood (s : State) : (clearDelivered s).rxGood = false := rfl
@[simp] theorem clearDelivered_tickCount (s : State) : (clearDelivered s).tickCount = s.tickCount := rfl
@[simp] theorem clearDelivered_lastBusy (s : State) : (clearDelivered s).lastBusy = s.lastBusy := rfl
@[simp] theorem clearDelivered_tpb (s : State) : (clearDelivered s).tpb = s.tpb := rfl
@[simp] theorem clearDelivered_cadTimeout (s : State) : (clearDelivered s).cadTimeout = s.cadTimeout := rfl
@[simp] theorem clearDelivered_cadBusySource (s : State) : (clearDelivered s).cadBusySource = s.cadBusySource := rfl
@[simp] theorem clearDelivered_env (s : State) : (clearDelivered s).env = s.env := rfl

/-! ### writeRxb: the fields it never writes -/

@[simp] theorem writeRxb_mode (s : State) (a : Nat) (v : Byte) : (writeRxb s a v).mode = s.mode := by unfold writeRxb; split <;> rfl
@[simp] theorem writeRxb_txb (s : State) (a : Nat) (v : Byte) : (writeRxb s a v).txb = s.txb := by unfold writeRxb; split <;> rfl
@[simp] theorem writeRxb_txLen (s : State) (a : Nat) (v : Byte) : (writeRxb s a v).txLen = s.txLen := by unfold writeRxb; split <;> rfl
@[simp] theorem writeRxb_txBitIndex (s : State) (a : Nat) (v : Byte) : (writeRxb s a v).txBitIndex = s.txBitIndex := by unfold writeRxb; split <;> rfl
@[simp] theorem writeRxb_txSample (s : State) (a : Nat) (v : Byte) : (writeRxb s a v).txSample = s.txSample := by unfold writeRxb; split <;> rfl
@[simp] theorem writeRxb_txLevel (s : State) (a : Nat) (v : Byte) : (writeRxb s a v).txLevel = s.txLevel := by unfold writeRxb; split <;> rfl
@[simp] theorem writeRxb_hdrTo (s : State) (a : Nat) (v : Byte) : (writeRxb s a v).hdrTo = s.hdrTo := by unfold writeRxb; split <;> rfl
@[simp] theorem writeRxb_hdrFrom (s : State) (a : Nat) (v : Byte) : (writeRxb s a v).hdrFrom = s.hdrFrom := by unfold writeRxb; split <;> rfl
@[simp] theorem writeRxb_hdrId (s : State) (a : Nat) (v : Byte) : (writeRxb s a v).hdrId = s.hdrId := by unfold writeRxb; split <;> rfl
@[simp] theorem writeRxb_hdrFlags (s : State) (a : Nat) (v : Byte) : (writeRxb s a v).hdrFlags = s.hdrFlags := by unfold writeRxb; split <;> rfl
@[simp] theorem writeRxb_rxRamp (s : State) (a : Nat) (v : Byte) : (writeRxb s a v).rxRamp = s.rxRamp := by unfold writeRxb; split <;> rfl
@[simp] theorem writeRxb_rxIntegrator (s : State) (a : Nat) (v : Byte) : (writeRxb s a v).rxIntegrator = s.rxIntegrator := by unfold writeRxb; split <;> rfl
@[simp] theorem writeRxb_rxLastSample (s : State) (a : Nat) (v : Byte) : (writeRxb s a v).rxLastSample = s.rxLastSample := by unfold writeRxb; split <;> rfl
@[simp] theorem writeRxb_rxWindow (s : State) (a : Nat) (v : Byte) : (writeRxb s a v).rxWindow = s.rxWindow := by unfold writeRxb; split <;> rfl
@[simp] theorem writeRxb_rxActive (s : State) (a : Nat) (v : Byte) : (writeRxb s a v).rxActive = s.rxActive := by unfold writeRxb; split <;> rfl
@[simp] theorem writeRxb_rxBitCount (s : State) (a : Nat) (v : Byte) : (writeRxb s a v).rxBitCount = s.rxBitCount := by unfold writeRxb; split <;> rfl
@[simp] theorem writeRxb_rxBufLen (s : State) (a : Nat) (v : Byte) : (writeRxb s a v).rxBufLen = s.rxBufLen := by unfold writeRxb; split <;> rfl
@[simp] theorem writeRxb_rxCount (s : State) (a : Nat) (v : Byte) : (writeRxb s a v).rxCount = s.rxCount := by unfold writeRxb; split <;> rfl
@[simp] theorem writeRxb_rxGood (s : State) (a : Nat) (v : Byte) : (writeRxb s a v).rxGood = s.rxGood := by unfold writeRxb; split <;> rfl
@[simp] theorem writeRxb_tickCount (s : State) (a : Nat) (v : Byte) : (writeRxb s a v).tickCount = s.tickCount := by unfold writeRxb; split <;> rfl
@[simp] theorem writeRxb_lastBusy (s : State) (a : Nat) (v : Byte) : (writeRxb s a v).lastBusy = s.lastBusy := by unfold writeRxb; split <;> rfl
@[simp] theorem writeRxb_tpb (s : State) (a : Nat) (v : Byte) : (writeRxb s a v).tpb = s.tpb := by unfold writeRxb; split <;> rfl
@[simp] theorem writeRxb_cadTimeout (s : State) (a : Nat) (v : Byte) : (writeRxb s a v).cadTimeout = s.cadTimeout := by unfold writeRxb; split <;> rfl
@[simp] theorem writeRxb_cadBusySource (s : State) (a : Nat) (v : Byte) : (writeRxb s a v).cadBusySource = s.cadBusySource := by unfold writeRxb; split <;> rfl
@[simp] theorem writeRxb_env (s : State) (a : Nat) (v : Byte) : (writeRxb s a v).env = s.env := by unfold writeRxb; split <;> rfl

/-! ### store: the fields it never writes -/

@[simp] theorem store_mode (s : State) (v : Byte) : (store s v).mode = s.mode := writeRxb_mode s _ v
@[simp] theorem store_txb (s : State) (v : Byte) : (store s v).txb = s.txb := writeRxb_txb s _ v
@[simp] theorem store_txLen (s : State) (v : Byte) : (store s v).txLen = s.txLen := writeRxb_txLen s _ v
@[simp] theorem store_txBitIndex (s : State) (v : Byte) : (store s v).txBitIndex = s.txBitIndex := writeRxb_txBitIndex s _ v
@[simp] theorem store_txSample (s : State) (v : Byte) : (store s v).txSample = s.txSample := writeRxb_txSample s _ v
@[simp] theorem store_txLevel (s : State) (v : Byte) : (store s v).txLevel = s.txLevel := writeRxb_txLevel s _ v
@[simp] theorem store_hdrTo (s : State) (v : Byte) : (store s v).hdrTo = s.hdrTo := writeRxb_hdrTo s _ v
@[simp] theorem store_hdrFrom (s : State) (v : Byte) : (store s v).hdrFrom = s.hdrFrom := writeRxb_hdrFrom s _ v
@[simp] theorem store_hdrId (s : State) (v : Byte) : (store s v).hdrId = s.hdrId := writeRxb_hdrId s _ v
@[simp] theorem store_hdrFlags (s : State) (v : Byte) : (store s v).hdrFlags = s.hdrFlags := writeRxb_hdrFlags s _ v
@[simp] theorem store_rxRamp (s : State) (v : Byte) : (store s v).rxRamp = s.rxRamp := writeRxb_rxRamp s _ v
@[simp] theorem store_rxIntegrator (s : State) (v : Byte) : (store s v).rxIntegrator = s.rxIntegrator := writeRxb_rxIntegrator s _ v
@[simp] theorem store_rxLastSample (s : State) (v : Byte) : (store s v).rxLastSample = s.rxLastSample := writeRxb_rxLastSample s _ v
@[simp] theorem store_rxWindow (s : State) (v : Byte) : (store s v).rxWindow = s.rxWindow := writeRxb_rxWindow s _ v
@[simp] theorem store_rxActive (s : State) (v : Byte) : (store s v).rxActive = s.rxActive := writeRxb_rxActive s _ v
@[simp] theorem store_rxBitCount (s : State) (v : Byte) : (store s v).rxBitCount = s.rxBitCount := writeRxb_rxBitCount s _ v
@[simp] theorem store_rxBufLen (s : State) (v : Byte) : (store s v).rxBufLen = s.rxBufLen + 1 := rfl
@[simp] theorem store_rxCount (s : State) (v : Byte) : (store s v).rxCount = s.rxCount := writeRxb_rxCount s _ v
@[simp] theorem store_rxGood (s : State) (v : Byte) : (store s v).rxGood = s.rxGood := writeRxb_rxGood s _ v
@[simp] theorem store_tickCount (s : State) (v : Byte) : (store s v).tickCount = s.tickCount := writeRxb_tickCount s _ v
@[simp] theorem store_lastBusy (s : State) (v : Byte) : (store s v).lastBusy = s.lastBusy := writeRxb_lastBusy s _ v
@[simp] theorem store_tpb (s : State) (v : Byte) : (store s v).tpb = s.tpb := writeRxb_tpb s _ v
@[simp] theorem store_cadTimeout (s : State) (v : Byte) : (store s v).cadTimeout = s.cadTimeout := writeRxb_cadTimeout s _ v
@[simp] theorem store_cadBusySource (s : State) (v : Byte) : (store s v).cadBusySource = s.cadBusySource := writeRxb_cadBusySource s _ v
@[simp] theorem store_env (s : State) (v : Byte) : (store s v).env = s.env := writeRxb_env s _ v

/-! ### enterReset: the fields it never writes -/

@[simp] theorem enterReset_mode (m : Mode) (s : State) : (enterReset m s).mode = s.mode := by unfold enterReset; split <;> rfl
@[simp] theorem enterReset_txb (m : Mode) (s : State) : (enterReset m s).txb = s.txb := by unfold enterReset; split <;> rfl
@[simp] theorem enterReset_txLen (m : Mode) (s : State) : (enterReset m s).txLen = s.txLen := by unfold enterReset; split <;> rfl
@[simp] theorem enterReset_txBitIndex (m : Mode) (s : State) : (enterReset m s).txBitIndex = s.txBitIndex := by unfold enterReset; split <;> rfl
@[simp] theorem enterReset_txSample (m : Mode) (s : State) : (enterReset m s).txSample = s.txSample := by unfold enterReset; split <;> rfl
@[simp] theorem enterReset_txLevel (m : Mode) (s : State) : (enterReset m s).txLevel = s.txLevel := by unfold enterReset; split <;> rfl
@[simp] theorem enterReset_hdrTo (m : Mode) (s : State) : (enterReset m s).hdrTo = s.hdrTo := by unfold enterReset; split <;> rfl
@[simp] theorem enterReset_hdrFrom (m : Mode) (s : State) : (enterReset m s).hdrFrom = s.hdrFrom := by unfold enterReset; split <;> rfl
@[simp] theorem enterReset_hdrId (m : Mode) (s : State) : (enterReset m s).hdrId = s.hdrId := by unfold enterReset; split <;> rfl
@[simp] theorem enterReset_hdrFlags (m : Mode) (s : State) : (enterReset m s).hdrFlags = s.hdrFlags := by unfold enterReset; split <;> rfl
@[simp] theorem enterReset_rxb (m : Mode) (s : State) : (enterReset m s).rxb = s.rxb := by unfold enterReset; split <;> rfl
@[simp] theorem enterReset_rxGood (m : Mode) (s : State) : (enterReset m s).rxGood = s.rxGood := by unfold enterReset; split <;> rfl
@[simp] theorem enterReset_tickCount (m : Mode) (s : State) : (enterReset m s).tickCount = s.tickCount := by unfold enterReset; split <;> rfl
@[simp] theorem enterReset_lastBusy (m : Mode) (s : State) : (enterReset m s).lastBusy = s.lastBusy := by unfold enterReset; split <;> rfl
@[simp] theorem enterReset_tpb (m : Mode) (s : State) : (enterReset m s).tpb = s.tpb := by unfold enterReset; split <;> rfl
@[simp] theorem enterReset_cadTimeout (m : Mode) (s : State) : (enterReset m s).cadTimeout = s.cadTimeout := by unfold enterReset; split <;> rfl
@[simp] theorem enterReset_cadBusySource (m : Mode) (s : State) : (enterReset m s).cadBusySource = s.cadBusySource := by unfold enterReset; split <;> rfl
@[simp] theorem enterReset_env (m : Mode) (s : State) : (enterReset m s).env = s.env := by unfold enterReset; split <;> rfl

/-! ### busyEvent: the fields it never writes -/

@[simp] theorem busyEvent_mode (level : Bool) (s : State) : (busyEvent level s).mode = s.mode := by unfold busyEvent; split <;> rfl
@[simp] theorem busyEvent_txb (level : Bool) (s : State) : (busyEvent level s).txb = s.txb := by unfold busyEvent; split <;> rfl
@[simp] theorem busyEvent_txLen (level : Bool) (s : State) : (busyEvent level s).txLen = s.txLen := by unfold busyEvent; split <;> rfl
@[simp] theorem busyEvent_txBitIndex (level : Bool) (s : State) : (busyEvent level s).txBitIndex = s.txBitIndex := by unfold busyEvent; split <;> rfl
@[simp] theorem busyEvent_txSample (level : Bool) (s : State) : (busyEvent level s).txSample = s.txSample := by unfold busyEvent; split <;> rfl
@[simp] theorem busyEvent_txLevel (level : Bool) (s : State) : (busyEvent level s).txLevel = s.txLevel := by unfold busyEvent; split <;> rfl
@[simp] theorem busyEvent_hdrTo (level : Bool) (s : State) : (busyEvent level s).hdrTo = s.hdrTo := by unfold busyEvent; split <;> rfl
@[simp] theorem busyEvent_hdrFrom (level : Bool) (s : State) : (busyEvent level s).hdrFrom = s.hdrFrom := by unfold busyEvent; split <;> rfl
@[simp] theorem busyEvent_hdrId (level : Bool) (s : State) : (busyEvent level s).hdrId = s.hdrId := by unfold busyEvent; split <;> rfl
@[simp] theorem busyEvent_hdrFlags (level : Bool) (s : State) : (busyEvent level s).hdrFlags = s.hdrFlags := by unfold busyEvent; split <;> rfl
@[simp] theorem busyEvent_rxRamp (level : Bool) (s : State) : (busyEvent level s).rxRamp = s.rxRamp := by unfold busyEvent; split <;> rfl
@[simp] theorem busyEvent_rxIntegrator (level : Bool) (s : State) : (busyEvent level s).rxIntegrator = s.rxIntegrator := by unfold busyEvent; split <;> rfl
@[simp] theorem busyEvent_rxLastSample (level : Bool) (s : State) : (busyEvent level s).rxLastSample = s.rxLastSample := by unfold busyEvent; split <;> rfl
@[simp] theorem busyEvent_rxWindow (level : Bool) (s : State) : (busyEvent level s).rxWindow = s.rxWindow := by unfold busyEvent; split <;> rfl
@[simp] theorem busyEvent_rxActive (level : Bool) (s : State) : (busyEvent level s).rxActive = s.rxActive := by unfold busyEvent; split <;> rfl
@[simp] theorem busyEvent_rxBitCount (level : Bool) (s : State) : (busyEvent level s).rxBitCount = s.rxBitCount := by unfold busyEvent; split <;> rfl
@[simp] theorem busyEvent_rxb (level : Bool) (s : State) : (busyEvent level s).rxb = s.rxb := by unfold busyEvent; split <;> rfl
@[simp] theorem busyEvent_rxBufLen (level : Bool) (s : State) : (busyEvent level s).rxBufLen = s.rxBufLen := by unfold busyEvent; split <;> rfl
@[simp] theorem busyEvent_rxCount (level : Bool) (s : State) : (busyEvent level s).rxCount = s.rxCount := by unfold busyEvent; split <;> rfl
@[simp] theorem busyEvent_rxGood (level : Bool) (s : State) : (busyEvent level s).rxGood = s.rxGood := by unfold busyEvent; split <;> rfl
@[simp] theorem busyEvent_tickCount (level : Bool) (s : State) : (busyEvent level s).tickCount = s.tickCount := by unfold busyEvent; split <;> rfl
@[simp] theorem busyEvent_tpb (level : Bool) (s : State) : (busyEvent level s).tpb = s.tpb := by unfold busyEvent; split <;> rfl
@[simp] theorem busyEvent_cadTimeout (level : Bool) (s : State) : (busyEvent level s).cadTimeout = s.cadTimeout := by unfold busyEvent; split <;> rfl
@[simp] theorem busyEvent_cadBusySource (level : Bool) (s : State) : (busyEvent level s).cadBusySource = s.cadBusySource := by unfold busyEvent; split <;> rfl
@[simp] theorem busyEvent_env (level : Bool) (s : State) : (busyEvent level s).env = s.env := by unfold busyEvent; split <;> rfl

/-! ### cadExit: the fields it never writes -/

@[simp] theorem cadExit_txb (s : State) : (cadExit s).txb = s.txb := by
  unfold cadExit; split
  · split <;> rfl
  · rfl
@[simp] theorem cadExit_txLen (s : State) : (cadExit s).txLen = s.txLen := by
  unfold cadExit; split
  · split <;> rfl
  · rfl
@[simp] theorem cadExit_txBitIndex (s : State) : (cadExit s).txBitIndex = s.txBitIndex := by
  unfold cadExit; split
  · split <;> rfl
  · rfl
@[simp] theorem cadExit_txSample (s : State) : (cadExit s).txSample = s.txSample := by
  unfold cadExit; split
  · split <;> rfl
  · rfl
@[simp] theorem cadExit_txLevel (s : State) : (cadExit s).txLevel = s.txLevel := by
  unfold cadExit; split
  · split <;> rfl
  · rfl
@[simp] theorem cadExit_hdrTo (s : State) : (cadExit s).hdrTo = s.hdrTo := by
  unfold cadExit; split
  · split <;> rfl
  · rfl
@[simp] theorem cadExit_hdrFrom (s : State) : (cadExit s).hdrFrom = s.hdrFrom := by
  unfold cadExit; split
  · split <;> rfl
  · rfl
@[simp] theorem cadExit_hdrId (s : State) : (cadExit s).hdrId = s.hdrId := by
  unfold cadExit; split
  · split <;> rfl
  · rfl
@[simp] theorem cadExit_hdrFlags (s : State) : (cadExit s).hdrFlags = s.hdrFlags := by
  unfold cadExit; split
  · split <;> rfl
  · rfl
@[simp] theorem cadExit_rxRamp (s : State) : (cadExit s).rxRamp = s.rxRamp := by
  unfold cadExit; split
  · split <;> rfl
  · rfl
@[simp] theorem cadExit_rxIntegrator (s : State) : (cadExit s).rxIntegrator = s.rxIntegrator := by
  unfold cadExit; split
  · split <;> rfl
  · rfl
@[simp] theorem cadExit_rxLastSample (s : State) : (cadExit s).rxLastSample = s.rxLastSample := by
  unfold cadExit; split
  · split <;> rfl
  · rfl
@[simp] theorem cadExit_rxWindow (s : State) : (cadExit s).rxWindow = s.rxWindow := by
  unfold cadExit; split
  · split <;> rfl
  · rfl
@[simp] theorem cadExit_rxActive (s : State) : (cadExit s).rxActive = s.rxActive := by
  unfold cadExit; split
  · split <;> rfl
  · rfl
@[simp] theorem cadExit_rxBitCount (s : State) : (cadExit s).rxBitCount = s.rxBitCount := by
  unfold cadExit; split
  · split <;> rfl
  · rfl
@[simp] theorem cadExit_rxb (s : State) : (cadExit s).rxb = s.rxb := by
  unfold cadExit; split
  · split <;> rfl
  · rfl
@[simp] theorem cadExit_rxBufLen (s : State) : (cadExit s).rxBufLen = s.rxBufLen := by
  unfold cadExit; split
  · split <;> rfl
  · rfl
@[simp] theorem cadExit_rxCount (s : State) : (cadExit s).rxCount = s.rxCount := by
  unfold cadExit; split
  · split <;> rfl
  · rfl
@[simp] theorem cadExit_rxGood (s : State) : (cadExit s).rxGood = s.rxGood := by
  unfold cadExit; split
  · split <;> rfl
  · rfl
@[simp] theorem cadExit_tickCount (s : State) : (cadExit s).tickCount = s.tickCount := by
  unfold cadExit; split
  · split <;> rfl
  · rfl
@[simp] theorem cadExit_lastBusy (s : State) : (cadExit s).lastBusy = s.lastBusy := by
  unfold cadExit; split
  · split <;> rfl
  · rfl
@[simp] theorem cadExit_tpb (s : State) : (cadExit s).tpb = s.tpb := by
  unfold cadExit; split
  · split <;> rfl
  · rfl
@[simp] theorem cadExit_cadTimeout (s : State) : (cadExit s).cadTimeout = s.cadTimeout := by
  unfold cadExit; split
  · split <;> rfl
  · rfl
@[simp] theorem cadExit_cadBusySource (s : State) : (cadExit s).cadBusySource = s.cadBusySource := by
  unfold cadExit; split
  · split <;> rfl
  · rfl
@[simp] theorem cadExit_env (s : State) : (cadExit s).env = s.env := by
  unfold cadExit; split
  · split <;> rfl
  · rfl

/-! ### syncTest: the fields it never writes -/

@[simp] theorem syncTest_mode (s : State) : (syncTest s).mode = s.mode := by unfold syncTest; split <;> rfl
@[simp] theorem syncTest_txb (s : State) : (syncTest s).txb = s.txb := by unfold syncTest; split <;> rfl
@[simp] theorem syncTest_txLen (s : State) : (syncTest s).txLen = s.txLen := by unfold syncTest; split <;> rfl
@[simp] theorem syncTest_txBitIndex (s : State) : (syncTest s).txBitIndex = s.txBitIndex := by unfold syncTest; split <;> rfl
@[simp] theorem syncTest_txSample (s : State) : (syncTest s).txSample = s.txSample := by unfold syncTest; split <;> rfl
@[simp] theorem syncTest_txLevel (s : State) : (syncTest s).txLevel = s.txLevel := by unfold syncTest; split <;> rfl
@[simp] theorem syncTest_hdrTo (s : State) : (syncTest s).hdrTo = s.hdrTo := by unfold syncTest; split <;> rfl
@[simp] theorem syncTest_hdrFrom (s : State) : (syncTest s).hdrFrom = s.hdrFrom := by unfold syncTest; split <;> rfl
@[simp] theorem syncTest_hdrId (s : State) : (syncTest s).hdrId = s.hdrId := by unfold syncTest; split <;> rfl
@[simp] theorem syncTest_hdrFlags (s : State) : (syncTest s).hdrFlags = s.hdrFlags := by unfold syncTest; split <;> rfl
@[simp] theorem syncTest_rxRamp (s : State) : (syncTest s).rxRamp = s.rxRamp := by unfold syncTest; split <;> rfl
@[simp] theorem syncTest_rxIntegrator (s : State) : (syncTest s).rxIntegrator = s.rxIntegrator := by unfold syncTest; split <;> rfl
@[simp] theorem syncTest_rxLastSample (s : State) : (syncTest s).rxLastSample = s.rxLastSample := by unfold syncTest; split <;> rfl
@[simp] theorem syncTest_rxWindow (s : State) : (syncTest s).rxWindow = s.rxWindow := by unfold syncTest; split <;> rfl
@[simp] theorem syncTest_rxb (s : State) : (syncTest s).rxb = s.rxb := by unfold syncTest; split <;> rfl
@[simp] theorem syncTest_rxGood (s : State) : (syncTest s).rxGood = s.rxGood := by unfold syncTest; split <;> rfl
@[simp] theorem syncTest_tickCount (s : State) : (syncTest s).tickCount = s.tickCount := by unfold syncTest; split <;> rfl
@[simp] theorem syncTest_lastBusy (s : State) : (syncTest s).lastBusy = s.lastBusy := by unfold syncTest; split <;> rfl
@[simp] theorem syncTest_tpb (s : State) : (syncTest s).tpb = s.tpb := by unfold syncTest; split <;> rfl
@[simp] theorem syncTest_cadTimeout (s : State) : (syncTest s).cadTimeout = s.cadTimeout := by unfold syncTest; split <;> rfl
@[simp] theorem syncTest_cadBusySource (s : State) : (syncTest s).cadBusySource = s.cadBusySource := by unfold syncTest; split <;> rfl

@[simp] theorem store_rxb (s : State) (v : Byte) : (store s v).rxb = (writeRxb s s.rxBufLen v).rxb := rfl

/-! ### enter -/

@[simp] theorem enter_mode (m : Mode) (s : State) : (enter m s).mode = m := rfl
@[simp] theorem enter_txb (m : Mode) (s : State) : (enter m s).txb = s.txb := enterReset_txb m s
@[simp] theorem enter_txLen (m : Mode) (s : State) : (enter m s).txLen = s.txLen := enterReset_txLen m s
@[simp] theorem enter_txBitIndex (m : Mode) (s : State) : (enter m s).txBitIndex = s.txBitIndex := enterReset_txBitIndex m s
@[simp] theorem enter_txSample (m : Mode) (s : State) : (enter m s).txSample = s.txSample := enterReset_txSample m s
@[simp] theorem enter_txLevel (m : Mode) (s : State) : (enter m s).txLevel = s.txLevel := enterReset_txLevel m s
@[simp] theorem enter_hdrTo (m : Mode) (s : State) : (enter m s).hdrTo = s.hdrTo := enterReset_hdrTo m s
@[simp] theorem enter_hdrFrom (m : Mode) (s : State) : (enter m s).hdrFrom = s.hdrFrom := enterReset_hdrFrom m s
@[simp] theorem enter_hdrId (m : Mode) (s : State) : (enter m s).hdrId = s.hdrId := enterReset_hdrId m s
@[simp] theorem enter_hdrFlags (m : Mode) (s : State) : (enter m s).hdrFlags = s.hdrFlags := enterReset_hdrFlags m s
@[simp] theorem enter_rxRamp (m : Mode) (s : State) : (enter m s).rxRamp = (enterReset m s).rxRamp := rfl
@[simp] theorem enter_rxIntegrator (m : Mode) (s : State) : (enter m s).rxIntegrator = (enterReset m s).rxIntegrator := rfl
@[simp] theorem enter_rxLastSample (m : Mode) (s : State) : (enter m s).rxLastSample = (enterReset m s).rxLastSample := rfl
@[simp] theorem enter_rxWindow (m : Mode) (s : State) : (enter m s).rxWindow = (enterReset m s).rxWindow := rfl
@[simp] theorem enter_rxActive (m : Mode) (s : State) : (enter m s).rxActive = (enterReset m s).rxActive := rfl
@[simp] theorem enter_rxBitCount (m : Mode) (s : State) : (enter m s).rxBitCount = (enterReset m s).rxBitCount := rfl
@[simp] theorem enter_rxb (m : Mode) (s : State) : (enter m s).rxb = s.rxb := enterReset_rxb m s
@[simp] theorem enter_rxBufLen (m : Mode) (s : State) : (enter m s).rxBufLen = (enterReset m s).rxBufLen := rfl
@[simp] theorem enter_rxCount (m : Mode) (s : State) : (enter m s).rxCount = (enterReset m s).rxCount := rfl
@[simp] theorem enter_rxGood (m : Mode) (s : State) : (enter m s).rxGood = s.rxGood := enterReset_rxGood m s
@[simp] theorem enter_tickCount (m : Mode) (s : State) : (enter m s).tickCount = s.tickCount := enterReset_tickCount m s
@[simp] theorem enter_lastBusy (m : Mode) (s : State) : (enter m s).lastBusy = if m = .cad then s.tickCount else s.lastBusy := rfl
@[simp] theorem enter_tpb (m : Mode) (s : State) : (enter m s).tpb = s.tpb := enterReset_tpb m s
@[simp] theorem enter_cadTimeout (m : Mode) (s : State) : (enter m s).cadTimeout = s.cadTimeout := enterReset_cadTimeout m s
@[simp] theorem enter_cadBusySource (m : Mode) (s : State) : (enter m s).cadBusySource = s.cadBusySource := enterReset_cadBusySource m s
@[simp] theorem enter_env (m : Mode) (s : State) : (enter m s).env = s.env := enterReset_env m s


end Sys2Proof.Machine
end

