-- ==== Sys2Proof/Laws/Receive.lean ====
section
/-! SUPPORT. What the receive chain can do: which fields each of its operations leaves alone, what a
stored byte leaves in RXB, and that the frame machine keeps its invariant. -/

namespace Sys2Proof.Machine

/-- `t` differs from `s` at most in the frame machine's own fields and the ghost events (rule R21, column
"component"). -/
def OnlyFrameFields (s t : State) : Prop :=
  t = { s with
    rxActive := t.rxActive
    rxBitCount := t.rxBitCount
    rxb := t.rxb
    rxBufLen := t.rxBufLen
    rxCount := t.rxCount
    rxGood := t.rxGood
    env := { s.env with ghost := t.env.ghost } }

theorem OnlyFrameFields.refl (s : State) : OnlyFrameFields s s := rfl

theorem OnlyFrameFields.trans {s t u : State} (h : OnlyFrameFields s t) (k : OnlyFrameFields t u) :
    OnlyFrameFields s u := by
  unfold OnlyFrameFields at h k ⊢
  rw [k, h]

theorem abort_onlyFrameFields (s : State) (r : AbortReason) : OnlyFrameFields s (abort s r) := rfl

theorem syncTest_onlyFrameFields (s : State) : OnlyFrameFields s (syncTest s) := by
  unfold syncTest; split <;> rfl

theorem store_onlyFrameFields (s : State) (v : Byte) : OnlyFrameFields s (store s v) := by
  unfold store writeRxb; split <;> rfl

theorem verify_onlyFrameFields (s : State) : OnlyFrameFields s (verify s) := by
  unfold verify; split <;> rfl

theorem append_onlyFrameFields (s : State) (v : Byte) : OnlyFrameFields s (append s v) := by
  unfold append; split
  · exact (store_onlyFrameFields s v).trans (verify_onlyFrameFields _)
  · exact store_onlyFrameFields s v

theorem takeByte_onlyFrameFields (s : State) (v : Byte) : OnlyFrameFields s (takeByte s v) := by
  unfold takeByte; split
  · split
    · exact .trans (t := { s with rxCount := v.toNat }) rfl (append_onlyFrameFields _ v)
    · rfl
  · exact append_onlyFrameFields s v

theorem byteStep_onlyFrameFields (s : State) : OnlyFrameFields s (byteStep s) := by
  unfold byteStep; split
  · split
    · rfl
    · exact .trans (t := { s with rxBitCount := 0 }) rfl (takeByte_onlyFrameFields _ _)
  · rfl

/-- `FRAME_STEP` touches nothing but the frame machine's fields. -/
theorem frameStep_onlyFrameFields (s : State) : OnlyFrameFields s (frameStep s) := by
  unfold frameStep; split
  · exact byteStep_onlyFrameFields s
  · split
    · rfl
    · exact syncTest_onlyFrameFields s

/-- A byte stored inside `RXB` (rule R218): the write of that one entry. -/
theorem store_rxb_of_lt {s : State} (h : s.rxBufLen < rxBufCap) (v : Byte) :
    (store s v).rxb = s.rxb.write s.rxBufLen v := by simp [writeRxb, h]

/-- The frame that a stored byte completes: the bytes held so far, then that byte. -/
theorem store_readRxb {s : State} (h : s.rxBufLen < rxBufCap) (v : Byte) :
    readRxb (store s v) (s.rxBufLen + 1) = readRxb s s.rxBufLen ++ [v] := by
  rw [readRxb, store_rxb_of_lt h, Memory.entries_write_end]; rfl

/-- `abort` leaves the frame machine waiting. -/
theorem abort_frameInv {s : State} (hc : s.rxb.wf = true)
    (hcap : ∀ a v, s.rxb.read a = some v → a < rxBufCap) (hg : s.rxGood = false) (r : AbortReason) :
    FrameInv (abort s r) where
  bits := by simp
  length := by simp
  count := by simp
  canonical := by simpa using hc
  capacity := by simpa using hcap
  written := by simp
  lengthByte := by simp
  delivered := by simp [hg]
  receiving := by simp
  waiting := by simp

/-- `VERIFY` of a complete frame delivers or aborts. -/
theorem verify_keeps_frameInv {s : State} (hb : s.rxBitCount < 12) (hlen : s.rxBufLen = s.rxCount)
    (hlo : minFrameLen ≤ s.rxCount) (hhi : s.rxCount ≤ rxBufCap) (hc : s.rxb.wf = true)
    (hcap : ∀ a v, s.rxb.read a = some v → a < rxBufCap)
    (hw : ∀ a, a < s.rxBufLen → (s.rxb.read a).isSome = true)
    (h0 : s.rxb.read 0 = some (BitVec.ofNat 8 s.rxCount)) (hg : s.rxGood = false) :
    FrameInv (verify s) := by
  by_cases hcrc : crcCheck (readRxb s s.rxCount) = true
  · rw [verify, if_pos hcrc]
    exact {
      bits := by simpa using hb
      length := by simp; omega
      count := by simp; omega
      canonical := by simpa using hc
      capacity := by simpa using hcap
      written := by simpa using hw
      lengthByte := by simp [h0]
      delivered := by
        have hres : crc16 (readRxb s s.rxCount) = crcResidue := of_decide_eq_true hcrc
        rw [readRxb] at hres
        simp [hlen, hlo, hhi, readRxb, hres]
      receiving := by simp
      waiting := by simp }
  · rw [verify, if_neg hcrc]
    exact abort_frameInv hc hcap hg _

/-- `APPEND` of a byte to a frame that is not yet complete keeps the invariant. -/
theorem append_keeps_frameInv {s : State} (v : Byte) (hb : s.rxBitCount < 12) (ha : s.rxActive = true)
    (hg : s.rxGood = false) (hlt : s.rxBufLen < s.rxCount)
    (hlo : minFrameLen ≤ s.rxCount) (hhi : s.rxCount ≤ rxBufCap) (hc : s.rxb.wf = true)
    (hcap : ∀ a v, s.rxb.read a = some v → a < rxBufCap)
    (hw : ∀ a, a < s.rxBufLen → (s.rxb.read a).isSome = true)
    (h0 : (s.rxb.write s.rxBufLen v).read 0 = some (BitVec.ofNat 8 s.rxCount)) :
    FrameInv (append s v) := by
  have hrxb : (store s v).rxb = s.rxb.write s.rxBufLen v := store_rxb_of_lt (by omega) v
  have hcap' : ∀ a w, (store s v).rxb.read a = some w → a < rxBufCap := by
    intro a w h
    rw [hrxb, Memory.read_write] at h
    split at h
    · omega
    · exact hcap a w h
  have hw' : ∀ a, a < (store s v).rxBufLen → ((store s v).rxb.read a).isSome = true := by
    intro a hlt'
    rw [hrxb, Memory.read_write]
    split
    · rfl
    · exact hw a (by simp at hlt'; omega)
  have hc' : (store s v).rxb.wf = true := by rw [hrxb]; exact Memory.wf_write _ _ _ hc
  have h0' : (store s v).rxb.read 0 = some (BitVec.ofNat 8 (store s v).rxCount) := by
    rw [hrxb, store_rxCount]; exact h0
  unfold append
  split
  · exact verify_keeps_frameInv (by simpa using hb) (by simpa) (by simpa using hlo) (by simpa using hhi)
      hc' hcap' hw' h0' (by simpa using hg)
  · exact {
      bits := by simpa using hb
      length := by simp only [store_rxBufLen]; omega
      count := .inr ⟨by simpa using hlo, by simpa using hhi⟩
      canonical := hc'
      capacity := hcap'
      written := hw'
      lengthByte := fun _ => h0'
      delivered := by simp [hg]
      receiving := fun _ => ⟨by simpa using hg, by simp only [store_rxBufLen]; omega,
        .inr (by simp only [store_rxBufLen, store_rxCount]; omega)⟩
      waiting := by simp [ha] }

/-- `BYTE_STEP` keeps the invariant. -/
theorem byteStep_keeps_frameInv {s : State} (h : FrameInv s) (ha : s.rxActive = true) :
    FrameInv (byteStep s) := by
  obtain ⟨hg, hlt, hpos⟩ := h.receiving ha
  unfold byteStep
  split
  · split
    · exact abort_frameInv h.canonical h.capacity hg _
    · rename_i v _
      unfold takeByte
      split
      · rename_i h0
        have h0 : s.rxBufLen = 0 := h0
        split
        · rename_i hp
          have hv : minFrameLen ≤ v.toNat ∧ v.toNat ≤ rxBufCap := by simpa [lengthPasses] using hp
          have hmin : 7 ≤ v.toNat := hv.1
          exact append_keeps_frameInv v (by simp only; omega) ha hg (by simp only; omega) hv.1 hv.2
            h.canonical h.capacity h.written (by simp [h0])
        · exact abort_frameInv (s := { s with rxBitCount := 0 }) h.canonical h.capacity hg _
      · rename_i h0
        have h0 : s.rxBufLen ≠ 0 := h0
        have hcount : s.rxBufLen < s.rxCount := hpos.resolve_left h0
        exact append_keeps_frameInv v (by simp only; omega) ha hg hcount
          (by have := h.count; simp only; omega) (by have := h.count; simp only; omega)
          h.canonical h.capacity h.written
          (by rw [Memory.read_write_other _ _ (by simp only; omega)]; exact h.lengthByte h0)
  · have hbits := h.bits
    exact { h with bits := by simp only; omega }

/-- `SYNC_TEST` keeps the invariant. -/
theorem syncTest_keeps_frameInv {s : State} (h : FrameInv s) (hg : s.rxGood = false) :
    FrameInv (syncTest s) := by
  unfold syncTest
  split
  · exact {
      bits := by simp
      length := by simp
      count := by simp
      canonical := by simpa using h.canonical
      capacity := by simpa using h.capacity
      written := by simp
      lengthByte := by simp
      delivered := by simp [hg]
      receiving := by simp [hg, rxBufCap]
      waiting := by simp }
  · exact h

/-- `FRAME_STEP` keeps the invariant. -/
theorem frameStep_keeps_frameInv {s : State} (h : FrameInv s) : FrameInv (frameStep s) := by
  unfold frameStep
  split
  · exact byteStep_keeps_frameInv h ‹_›
  · split
    · exact h
    · exact syncTest_keeps_frameInv h (by simpa using ‹¬s.rxGood = true›)

end Sys2Proof.Machine
end

