-- ==== Sys2Proof/Laws/Pll.lean ====
section
/-! SUPPORT. The demodulator: how fast the ramp moves, that it stays in its range, and that a receiving tick
keeps the invariant. Use the lemmas of Laws/State.lean for a field of `bitOut`: asking for it by
definitional unfolding (`rfl`, `exact`, `▸`) makes Lean compare the ramp with a difference, which it unrolls. -/

namespace Sys2Proof.Machine

/-- At a legal TPB the retarded increment is positive and not above the base one, which is not above 80. -/
theorem ramp_constants {tpb : Nat} (h2 : 2 ≤ tpb) (h16 : tpb ≤ 16) :
    1 ≤ rampRetard tpb ∧ rampRetard tpb ≤ rampBase tpb ∧ rampBase tpb ≤ 80 ∧
      rampTransition ≤ slowTicks tpb * rampRetard tpb := by
  interval_cases tpb <;> decide

/-- An increment is at least the retarded one, at least the base one from the second half of the ramp on, and
at most the advanced one. -/
theorem rampInc_bounds {tpb : Nat} (t : Bool) (r : Nat) :
    rampRetard tpb ≤ rampInc tpb t r ∧ (rampTransition ≤ r → rampBase tpb ≤ rampInc tpb t r) ∧
      rampInc tpb t r ≤ rampBase tpb + 9 := by
  unfold rampInc rampRetard rampAdvance rampAdjust
  split
  · split <;> (refine ⟨by omega, fun h => by omega, by omega⟩)
  · exact ⟨by omega, fun _ => le_refl _, by omega⟩

/-- The ramp is never behind the slowest one: one more tick, at least one more slowest increment. -/
theorem slowestRamp_step {tpb count r : Nat} (t : Bool) (h2 : 2 ≤ tpb) (h16 : tpb ≤ 16)
    (h : slowestRamp tpb count ≤ r) : slowestRamp tpb (count + 1) ≤ r + rampInc tpb t r := by
  obtain ⟨_, _, _, hslow⟩ := ramp_constants h2 h16
  obtain ⟨hlow, hfast, _⟩ := rampInc_bounds (tpb := tpb) t r
  unfold slowestRamp at h ⊢
  rcases Nat.lt_or_ge count (slowTicks tpb) with hc | hc
  · rw [Nat.min_eq_left (by omega), show count - slowTicks tpb = 0 by omega] at h
    rw [Nat.min_eq_left (by omega), show count + 1 - slowTicks tpb = 0 by omega, Nat.succ_mul]
    omega
  · rw [Nat.min_eq_right hc] at h
    rw [Nat.min_eq_right (by omega), show count + 1 - slowTicks tpb = (count - slowTicks tpb) + 1 by omega,
      Nat.succ_mul]
    have := hfast (by omega)
    omega

theorem slowestRamp_mono {tpb a b : Nat} (h : a ≤ b) : slowestRamp tpb a ≤ slowestRamp tpb b := by
  unfold slowestRamp
  exact Nat.add_le_add (Nat.mul_le_mul_right _ (by omega)) (Nat.mul_le_mul_right _ (by omega))

/-- The ramp sum never exceeds 248 (rule R29). -/
theorem rampSum_le {s : State} (h2 : 2 ≤ s.tpb) (h16 : s.tpb ≤ 16) (h : s.rxRamp < rampLen) (level : Bool) :
    rampSum s level ≤ 248 := by
  obtain ⟨_, _, hb, _⟩ := ramp_constants h2 h16
  have := (rampInc_bounds (tpb := s.tpb) (level != s.rxLastSample) s.rxRamp).2.2
  unfold rampSum
  have : s.rxRamp < 160 := h
  omega

/-- The integrator's pace survives a tick within a bit window. -/
theorem integrated_pace {s : State} (h2 : 2 ≤ s.tpb) (h16 : s.tpb ≤ 16) (h : PllInv s) (level : Bool) :
    slowestRamp s.tpb (integrated s level) ≤ rampSum s level := by
  refine le_trans (slowestRamp_mono ?_) (slowestRamp_step (level != s.rxLastSample) h2 h16 h.pace)
  unfold integrated; cases level <;> simp

theorem bitOut_pllInv {s : State} (h2 : 2 ≤ s.tpb) (h16 : s.tpb ≤ 16) (h : PllInv s) (level : Bool) :
    PllInv (bitOut s level) where
  ramp := by
    have := rampSum_le h2 h16 h.ramp level
    simp [rampLen]; omega
  pace := by simp [slowestRamp]

theorem withinBit_pllInv {s : State} (h2 : 2 ≤ s.tpb) (h16 : s.tpb ≤ 16) (h : PllInv s) (level : Bool)
    (hlt : rampSum s level < rampLen) : PllInv (withinBit s level) where
  ramp := by simpa using hlt
  pace := by simpa using integrated_pace h2 h16 h level

/-- The frame machine's invariant speaks of no field the demodulator writes. -/
theorem bitOut_frameInv {s : State} (h : FrameInv s) (level : Bool) : FrameInv (bitOut s level) where
  bits := by simpa using h.bits
  length := by simpa using h.length
  count := by simpa using h.count
  canonical := by simpa using h.canonical
  capacity := by simpa using h.capacity
  written := by simpa using h.written
  lengthByte := by simpa using h.lengthByte
  delivered := by simpa [readRxb] using h.delivered
  receiving := by simpa using h.receiving
  waiting := by simpa using h.waiting

theorem withinBit_frameInv {s : State} (h : FrameInv s) (level : Bool) : FrameInv (withinBit s level) :=
  { h with }

/-- The fields neither the demodulator nor the frame machine writes. -/
structure SameOutsideReceiver (s t : State) : Prop where
  mode : t.mode = s.mode
  txb : t.txb = s.txb
  txLen : t.txLen = s.txLen
  txBitIndex : t.txBitIndex = s.txBitIndex
  txSample : t.txSample = s.txSample
  txLevel : t.txLevel = s.txLevel
  hdrTo : t.hdrTo = s.hdrTo
  hdrFrom : t.hdrFrom = s.hdrFrom
  hdrId : t.hdrId = s.hdrId
  hdrFlags : t.hdrFlags = s.hdrFlags
  tickCount : t.tickCount = s.tickCount
  lastBusy : t.lastBusy = s.lastBusy
  tpb : t.tpb = s.tpb
  cadTimeout : t.cadTimeout = s.cadTimeout
  cadBusySource : t.cadBusySource = s.cadBusySource
  env : t.env = { s.env with ghost := t.env.ghost }

theorem pllStep_sameOutside (level : Bool) (s : State) : SameOutsideReceiver s (pllStep level s) := by
  unfold pllStep
  split
  · have := frameStep_onlyFrameFields (bitOut s level)
    unfold OnlyFrameFields at this
    constructor <;> rw [this] <;> simp
  · constructor <;> simp

/-- `PLL_STEP` keeps both parts of the invariant. -/
theorem pllStep_keeps {s : State} (h2 : 2 ≤ s.tpb) (h16 : s.tpb ≤ 16) (hp : PllInv s) (hf : FrameInv s)
    (level : Bool) : PllInv (pllStep level s) ∧ FrameInv (pllStep level s) := by
  unfold pllStep
  split
  · refine ⟨?_, frameStep_keeps_frameInv (bitOut_frameInv hf level)⟩
    have hb := bitOut_pllInv h2 h16 hp level
    have hsame := frameStep_onlyFrameFields (bitOut s level)
    unfold OnlyFrameFields at hsame
    have hramp : (frameStep (bitOut s level)).rxRamp = (bitOut s level).rxRamp := by rw [hsame]
    have hinteg : (frameStep (bitOut s level)).rxIntegrator = (bitOut s level).rxIntegrator := by rw [hsame]
    have htpb : (frameStep (bitOut s level)).tpb = (bitOut s level).tpb := by rw [hsame]
    constructor
    · rw [hramp]; exact hb.ramp
    · rw [hramp, hinteg, htpb]; exact hb.pace
  · exact ⟨withinBit_pllInv h2 h16 hp level (by omega), withinBit_frameInv hf level⟩

end Sys2Proof.Machine
end

