-- ==== Sys2Proof/Laws/Tx.lean ====
section
/-! SUPPORT. The transmitter: the lengths and entries of a frame, and what the accepted SEND and each step of the pump
leave. -/

namespace Sys2Proof.Machine

@[simp] theorem frameData_length (s : State) (p : List Byte) : (frameData s p).length = 5 + p.length := by
  simp [frameData, headerBytes]; omega

/-- N = 7 + L (rule R101). -/
@[simp] theorem frameBytes_length (s : State) (p : List Byte) : (frameBytes s p).length = 7 + p.length := by
  simp [frameBytes]; omega

/-- Each byte becomes two entries (rule R68). -/
theorem byteEntries_flatMap_length (bytes : List Byte) : (bytes.flatMap byteEntries).length = 2 * bytes.length := by
  induction bytes with
  | nil => rfl
  | cons b bytes ih => rw [List.flatMap_cons, List.length_append, ih, List.length_cons]; simp [byteEntries]; omega

/-- The two entries of the j-th byte (rule R99). -/
theorem byteEntries_flatMap_getElem? (bytes : List Byte) (j : Nat) (b : Byte) (h : bytes[j]? = some b) :
    (bytes.flatMap byteEntries)[2 * j]? = some ((encodeByte b).1.setWidth 8) ∧
      (bytes.flatMap byteEntries)[2 * j + 1]? = some ((encodeByte b).2.setWidth 8) := by
  induction bytes generalizing j with
  | nil => simp at h
  | cons a bytes ih =>
    cases j with
    | zero => simp at h; subst h; simp [List.flatMap_cons, byteEntries]
    | succ j =>
      have := ih j (by simpa using h)
      rw [List.flatMap_cons, show 2 * (j + 1) = 2 * j + 2 by omega, show 2 * j + 2 + 1 = 2 * j + 1 + 2 by omega]
      simpa [byteEntries] using this

/-- tx_len = 10 + 2N (rule R99). -/
theorem txEntries_length (s : State) (p : List Byte) : (txEntries s p).length = 10 + 2 * (7 + p.length) := by
  rw [txEntries, List.length_append, byteEntries_flatMap_length, frameBytes_length]
  simp [preambleEntries, startEntries]

/-- Every entry carries a 6-bit symbol, bits [7:6] being 0 (rule R23). -/
theorem txEntries_lt (s : State) (p : List Byte) (v : Byte) (h : v ∈ txEntries s p) : v.toNat < 64 := by
  simp only [txEntries, preambleEntries, startEntries, List.mem_append, List.mem_flatMap, byteEntries,
    List.mem_replicate, List.mem_cons, List.not_mem_nil, or_false] at h
  rcases h with (⟨_, rfl⟩ | rfl | rfl) | ⟨b, _, rfl | rfl⟩
  · decide
  · decide
  · decide
  · have := (encodeByte b).1.isLt; simp; omega
  · have := (encodeByte b).2.isLt; simp; omega

/-- What the accepted SEND leaves in TXB. -/
theorem startSend_read (p : List Byte) (s : State) (a : Nat) :
    (startSend p s).txb.read a =
      if a < 10 + 2 * (7 + p.length) then (txEntries s p)[a]? else s.txb.read a := by
  simp [Memory.read_writeList, txEntries_length]

/-- The accepted SEND keeps the transmitter's invariant. -/
theorem startSend_txInv {p : List Byte} {s : State} (hp : p.length ≤ maxMsgLen) (htpb : 2 ≤ s.tpb)
    (h : TxInv s) : TxInv (startSend p s) where
  running := by simp
  length := by have : p.length ≤ 60 := hp; simp [minFrameLen]; omega
  index := by simp
  sample := by simp; omega
  low := by simp
  canonical := by simpa using Memory.wf_writeList _ _ _ h.canonical
  capacity := by
    have : p.length ≤ 60 := hp
    intro a v hv
    rw [startSend_read] at hv
    split at hv
    · exact ⟨by unfold txBufCap; omega, txEntries_lt s p v (List.mem_of_getElem? hv)⟩
    · exact h.capacity a v hv
  written := by
    intro a ha
    rw [startSend_read, if_pos (by simpa [minFrameLen] using ha)]
    have : a < (txEntries s p).length := by rw [txEntries_length]; simpa [minFrameLen] using ha
    simp [this]

/-- The pump holds, drains or emits; from a state that meets the invariant an emitted bit comes from an entry
of the transmission, which SEND has written. -/
theorem txStep_cases {s : State} (h : TxInv s) :
    (s.txSample ≠ 0 ∧ txStep s = nextTxSample s) ∨
    (s.txSample = 0 ∧ s.txBitIndex = 6 * s.txLen ∧ txStep s = drain s) ∨
    (s.txSample = 0 ∧ s.txBitIndex < 6 * s.txLen ∧ txStep s = nextTxSample (emitBit s) ∧
      s.txb.read (s.txBitIndex / 6) = some (readTxb s (s.txBitIndex / 6))) := by
  by_cases h0 : s.txSample = 0
  · by_cases hend : s.txBitIndex = 6 * s.txLen
    · exact .inr (.inl ⟨h0, hend, by simp [txStep, h0, hend]⟩)
    · have hlt : s.txBitIndex < 6 * s.txLen := by have := h.index; omega
      obtain ⟨entry, he⟩ := Option.isSome_iff_exists.mp (h.written (s.txBitIndex / 6) (by omega))
      exact .inr (.inr ⟨h0, hlt, by simp [txStep, h0, hend], by rw [he, readTxb, Memory.entry_of_read he]⟩)
  · exact .inl ⟨h0, by simp [txStep, h0]⟩

end Sys2Proof.Machine
end

