-- ==== Sys2Proof/Laws/Mode.lean ====
section
/-! SUPPORT. The mode automaton: what entering a mode leaves of each part of the invariant, and the cases of
SET_MODE and START_CAD. -/

namespace Sys2Proof.Machine

theorem pllReset_pllInv (s : State) : PllInv (pllReset s) where
  ramp := by simp [rampLen]
  pace := by simp [slowestRamp]

/-- The PLL reset keeps the frame machine's invariant: a delivered frame survives it (rule R190). -/
theorem pllReset_frameInv {s : State} (h : FrameInv s) : FrameInv (pllReset s) := by
  by_cases hg : s.rxGood = true
  · exact {
      bits := by simp
      length := by simpa [hg] using h.length
      count := by simpa [hg] using h.count
      canonical := by simpa using h.canonical
      capacity := by simpa using h.capacity
      written := by simpa [hg] using h.written
      lengthByte := by simpa [hg] using h.lengthByte
      delivered := by simpa [hg, readRxb] using (h.delivered hg).2
      receiving := by simp
      waiting := by simp [hg] }
  · exact {
      bits := by simp
      length := by simp [hg]
      count := by simp [hg]
      canonical := by simpa using h.canonical
      capacity := by simpa using h.capacity
      written := by simp [hg]
      lengthByte := by simp [hg]
      delivered := by simp [hg]
      receiving := by simp
      waiting := by simp [hg] }

theorem enterReset_pllInv {m : Mode} {s : State} (h : PllInv s) : PllInv (enterReset m s) := by
  unfold enterReset; split
  · exact pllReset_pllInv s
  · exact h

theorem enterReset_frameInv {m : Mode} {s : State} (h : FrameInv s) : FrameInv (enterReset m s) := by
  unfold enterReset; split
  · exact pllReset_frameInv h
  · exact h

/-- Entering a mode keeps the demodulator's invariant. -/
theorem enter_pllInv {m : Mode} {s : State} (h : PllInv s) : PllInv (enter m s) where
  ramp := (enterReset_pllInv (m := m) h).ramp
  pace := by simpa using (enterReset_pllInv (m := m) h).pace

/-- Entering a mode keeps the frame machine's invariant. -/
theorem enter_frameInv {m : Mode} {s : State} (h : FrameInv s) : FrameInv (enter m s) := by
  have := enterReset_frameInv (m := m) h
  exact { this with }

/-- The two moves that reset the PLL are those that begin listening (rule R246). -/
theorem enterReset_eq_self {m : Mode} {s : State} (h : listening m = false ∨ listening s.mode = true) :
    enterReset m s = s := by
  unfold enterReset
  rcases h with h | h <;> simp [h]

/-- START_CAD does nothing but move from Rx to Cad (rule R249). -/
theorem startCad_cases (s : State) :
    (s.mode = .cad ∧ startCad s = (.ok, s)) ∨
    (s.mode = .rx ∧ startCad s = (.ok, { s with mode := .cad, lastBusy := s.tickCount })) ∨
    (s.mode ≠ .cad ∧ s.mode ≠ .rx ∧ startCad s = (.rejected, s)) := by
  by_cases hc : s.mode = .cad
  · exact .inl ⟨hc, by simp [startCad, hc]⟩
  · by_cases hr : s.mode = .rx
    · have : enterReset .cad s = s := enterReset_eq_self (.inr (by simp [hr, listening]))
      exact .inr (.inl ⟨hr, by simp [startCad, hr, enter, this]⟩)
    · exact .inr (.inr ⟨hc, hr, by simp [startCad, hc, hr]⟩)

/-- SET_MODE leaves the state alone, makes one of the four plain moves by entering, or starts CAD (rule
R248). -/
theorem setMode_cases (m : Mode) (s : State) :
    (setMode m s).2 = s ∨
    (plainMove s.mode m = true ∧ setMode m s = (.ok, enter m s)) ∨
    (s.mode = .rx ∧ m = .cad ∧ setMode m s = (.ok, { s with mode := .cad, lastBusy := s.tickCount })) := by
  unfold setMode
  split
  · exact .inl rfl
  · split
    · exact .inl rfl
    · split
      · exact .inl rfl
      · split
        · rename_i hm
          rcases startCad_cases s with ⟨_, h⟩ | ⟨hr, h⟩ | ⟨_, _, h⟩
          · exact .inl (by rw [h])
          · exact .inr (.inr ⟨hr, hm, h⟩)
          · exact .inl (by rw [h])
        · split
          · exact .inr (.inl ⟨by assumption, rfl⟩)
          · exact .inl rfl

end Sys2Proof.Machine
end

