-- ==== Sys2Proof/Laws/PerInstr.lean ====
section
/-! SUPPORT. Per instruction: its encoding begins with the opcode table's command word, with as many operand
bytes as the table gives it (rules R84, R90). -/

namespace Sys2Proof.Laws.Opcode

/-- The command word of an instruction in spec/opcode_table.json: `match`, with `ARG` the mode code for `SET_MODE`. -/
def tableWord : Instr → Byte
  | .tick => 0x10
  | .send _ => 0x20
  | .setHeader _ _ _ _ => 0x30
  | .available => 0x40
  | .receive => 0x50
  | .setMode .sleep => 0x60
  | .setMode .idle => 0x61
  | .setMode .tx => 0x62
  | .setMode .rx => 0x63
  | .setMode .cad => 0x64
  | .startCad => 0x70
  | .isChannelBusy => 0x80
  | .txDone => 0x90
  | .getMode => 0xA0

/-- The `operand_bytes` column of spec/opcode_table.json. -/
def operandBytes : Instr → Nat
  | .tick => 0
  | .send payload => 1 + payload.length
  | .setHeader _ _ _ _ => 4
  | .available => 0
  | .receive => 0
  | .setMode _ => 0
  | .startCad => 0
  | .isChannelBusy => 0
  | .txDone => 0
  | .getMode => 0

/-- The encoding of an instruction against its row of the table. -/
def Statement (i : Instr) : Prop :=
  ∃ operands, encode i = tableWord i :: operands ∧ operands.length = operandBytes i

theorem tick : Statement .tick := ⟨[], rfl, rfl⟩

theorem send (payload : List Byte) : Statement (.send payload) :=
  ⟨_, rfl, by simp [operandBytes, Nat.add_comm]⟩

theorem setHeader (dest src ident flags : Byte) : Statement (.setHeader dest src ident flags) :=
  ⟨[dest, src, ident, flags], rfl, rfl⟩

theorem available : Statement .available := ⟨[], rfl, rfl⟩

theorem receive : Statement .receive := ⟨[], rfl, rfl⟩

theorem setMode (m : Mode) : Statement (.setMode m) := by cases m <;> exact ⟨[], rfl, rfl⟩

theorem startCad : Statement .startCad := ⟨[], rfl, rfl⟩

theorem isChannelBusy : Statement .isChannelBusy := ⟨[], rfl, rfl⟩

theorem txDone : Statement .txDone := ⟨[], rfl, rfl⟩

theorem getMode : Statement .getMode := ⟨[], rfl, rfl⟩

end Sys2Proof.Laws.Opcode
end

