-- ==== Sys2Proof/Tests/Slice0.lean ====
section
/-! SUPPORT. Tests. The expected results come from the spec: the words and vectors of 95_test_vectors.md and the
examples of the rules, named at each test. Theorems named test_witness_* show that the hypotheses of a statement
in Certificates/Slice0/Obligations.lean can be met together, clause by clause. -/

namespace Sys2Proof.Tests

open Sys2Proof Sys2Proof.Machine

/-- The state a meaning answers, if it answers one. -/
def nextState? : Host.Outcome State Fault Refusal → Option State
  | .next s => some s
  | .fault _ => none
  | .refused _ => none

/-- The last observation of a state. -/
def lastObserved (o : Host.Outcome State Fault Refusal) : Option Observation :=
  (nextState? o).bind fun s => s.env.observed.getLast?

/-- The reset state in another mode. -/
def inMode (m : Mode) : State := { State.reset with mode := m }

/-- A receiver with a given ramp, last sample, integrator, window and RX level. -/
def receiver (ramp : Nat) (last : Bool) (integ : Nat) (w : Window) (level : Bool) : State :=
  { State.reset with
    mode := .rx, rxRamp := ramp, rxLastSample := last, rxIntegrator := integ, rxWindow := w
    env := { Env.empty with rxDraws := [level] } }

/-- A transmitter with one buffer entry. -/
def sender (index sample : Nat) : State :=
  { State.reset with mode := .tx, txb := [(0, 0x2A)], txLen := 1, txBitIndex := index, txSample := sample }

/-- The state with the given bytes pending. -/
def offered (bytes : List Byte) : State := setPending State.reset bytes

/-- "Hello". -/
def hello : List Byte := [0x48, 0x65, 0x6C, 0x6C, 0x6F]

/-- The header of scenario S2. -/
def s2 : State := { State.reset with hdrTo := 0xFF, hdrFrom := 0x00, hdrId := 0x01, hdrFlags := 0x00 }

/-! ### WellFormed -/

/-- A payload of 256 bytes has no `LEN` (rule R82). -/
theorem test_wellFormed_refuses_long_payload :
    (Instr.send (List.replicate 256 0)).wellFormed = false := by decide +kernel

/-! ### Decoding, words written out bit by bit from rule R84 -/

theorem test_decode_tick : decode [0b00010000] = .instr .tick [] := by decide

theorem test_decode_send :
    decode [0b00100000, 0b00000010, 0x61, 0x62, 0x63] = .instr (.send [0x61, 0x62]) [0x63] := by decide

theorem test_decode_setHeader :
    decode [0b00110000, 0x01, 0x02, 0x03, 0x04] = .instr (.setHeader 0x01 0x02 0x03 0x04) [] := by decide

theorem test_decode_available : decode [0b01000000] = .instr .available [] := by decide

theorem test_decode_receive : decode [0b01010000] = .instr .receive [] := by decide

theorem test_decode_setMode :
    [0b01100000, 0b01100001, 0b01100010, 0b01100011, 0b01100100].map (fun c => decode [c]) =
      [.instr (.setMode .sleep) [], .instr (.setMode .idle) [], .instr (.setMode .tx) [],
       .instr (.setMode .rx) [], .instr (.setMode .cad) []] := by decide

theorem test_decode_startCad : decode [0b01110000] = .instr .startCad [] := by decide

theorem test_decode_isChannelBusy : decode [0b10000000] = .instr .isChannelBusy [] := by decide

theorem test_decode_txDone : decode [0b10010000] = .instr .txDone [] := by decide

theorem test_decode_getMode : decode [0b10100000] = .instr .getMode [] := by decide

/-- 95_test_vectors.md section 2.1: the words that are Illegal there. -/
theorem test_decode_illegal :
    ([0x00, 0x11, 0x1F, 0x65, 0x6F, 0x71, 0xA4, 0xB0, 0xFF] : List Byte).map (fun c => decode [c, 0x99]) =
      [.illegal (.reservedOpcode 0x0) [0x99], .illegal (.argNotZero 0x1 0x1) [0x99],
       .illegal (.argNotZero 0x1 0xF) [0x99], .illegal (.reservedMode 0x5) [0x99],
       .illegal (.reservedMode 0xF) [0x99], .illegal (.argNotZero 0x7 0x1) [0x99],
       .illegal (.argNotZero 0xA 0x4) [0x99], .illegal (.reservedOpcode 0xB) [0x99],
       .illegal (.reservedOpcode 0xF) [0x99]] := by decide

/-- The opcode table's rows, numbered as the table numbers them, operands of zeros. -/
theorem test_decodeTableWord :
    [0x10, 0x20, 0x30, 0x40, 0x50, 0x60, 0x70, 0x80, 0x90, 0xA0, 0x65].map (decodeTableWord 8) =
      [some .tick, some (.send []), some (.setHeader 0 0 0 0), some .available, some .receive,
       some (.setMode .sleep), some .startCad, some .isChannelBusy, some .txDone, some .getMode, none] := by
  decide +kernel

/-- The instruction a table word places runs as the first one after reset, with all its bytes taken. -/
theorem test_withFetchWord_runs_first :
    (nextState? (step (State.reset.withFetchWord 8 0x63))).map (fun s => (s.mode, s.env.pending)) =
      some (.rx, []) := by decide +kernel

/-! ### Codec, CRC (95_test_vectors.md sections 2.2, 2.3) -/

theorem test_encodeByte : [0x48, 0x02, 0xA5, 0xFF].map encodeByte =
    [(0x16, 0x23), (0x0D, 0x13), (0x26, 0x19), (0x34, 0x34)] := by decide

theorem test_decodePair : ([0x353, 0x5A6, 0xB38, 0x3CD, 0xFFF] : List Window).map decodePair =
    [some 0x02, some 0x4A, none, none, none] := by decide

theorem test_crcUpdate : [crcUpdate 0xFFFF 0x00, crcUpdate 0x0000 0x80, crcUpdate 0x0000 0x01, crcUpdate 0x1234 0x56] =
    [0x0F87, 0x8408, 0x1189, 0x4006] := by decide

theorem test_crc16_of_digits :
    crc16 [0x31, 0x32, 0x33, 0x34, 0x35, 0x36, 0x37, 0x38, 0x39] = 0x6F91 := by decide +kernel

/-- Scenario S2: the frame `0C FF 00 01 00 48 65 6C 6C 6F 72 02`. -/
theorem test_frameBytes_of_hello :
    frameBytes s2 hello = [0x0C, 0xFF, 0x00, 0x01, 0x00, 0x48, 0x65, 0x6C, 0x6C, 0x6F, 0x72, 0x02] := by
  decide +kernel

/-! ### SET_HEADER, SEND, TX_DONE -/

theorem test_setHeader : (nextState? (exec (.setHeader 0xFF 0x00 0x01 0x02) State.reset)).map
    (fun s => [s.hdrTo, s.hdrFrom, s.hdrId, s.hdrFlags]) = some [0xFF, 0x00, 0x01, 0x02] := by decide

/-- 95_test_vectors.md section 2.5, scenario S2, entry by entry. -/
theorem test_send_hello : (nextState? (exec (.send hello) s2)).map (fun s => (s.txb.map (·.2), s.txLen, s.mode)) =
    some ([0x2A, 0x2A, 0x2A, 0x2A, 0x2A, 0x2A, 0x2A, 0x2A, 0x2C, 0x38, 0x0D, 0x2A, 0x34, 0x34, 0x0D, 0x0D, 0x0D,
      0x0E, 0x0D, 0x0D, 0x16, 0x23, 0x1A, 0x19, 0x1A, 0x2A, 0x1A, 0x2A, 0x1A, 0x34, 0x1C, 0x13, 0x0D, 0x13],
      34, .tx) := by decide +kernel

/-- Section 2.5, status vectors: 61 bytes in Tx is Busy, in Idle TooLong. -/
theorem test_send_refused :
    [lastObserved (exec (.send (List.replicate 61 0)) (inMode .tx)),
     lastObserved (exec (.send (List.replicate 61 0)) (inMode .idle))] =
      [some ⟨[0x02], none⟩, some ⟨[0x01], none⟩] := by decide

theorem test_txDone : [lastObserved (exec .txDone (inMode .tx)), lastObserved (exec .txDone (inMode .sleep))] =
    [some ⟨[0x00, 0x00], none⟩, some ⟨[0x00, 0x01], none⟩] := by decide

/-! ### TICK -/

/-- Rule R160, example: the first tick after SEND puts bit 5 of 0x2A on the line. -/
theorem test_tick_in_tx : (nextState? (exec .tick (sender 0 0))).map (fun s => (s.txLevel, s.txBitIndex, s.txSample)) =
    some (true, 1, 1) := by decide

/-- 95_test_vectors.md section 2.4, rows (150, 0, 3) with 1 and (131, 1, 4) with 1, and the last row. -/
theorem test_tick_in_rx :
    [receiver 150 false 3 0x000 true, receiver 131 true 4 0x000 true, receiver 159 true 7 0xD9C true].map
      (fun s => (nextState? (exec .tick s)).map fun t => (t.rxRamp, t.rxLastSample, t.rxIntegrator, t.rxWindow)) =
      [some (19, true, 0, 0x001), some (151, true, 5, 0x000), some (19, true, 0, 0xB39)] := by decide +kernel

/-! ### AVAILABLE, RECEIVE -/

/-- The frame of scenario S1 (95_test_vectors.md section 3), held for collection. -/
def delivered : State :=
  { State.reset with
    mode := .rx, rxGood := true, rxBufLen := 7, rxCount := 7
    rxb := [(0, 0x07), (1, 0xFF), (2, 0xFF), (3, 0x00), (4, 0x00), (5, 0x8A), (6, 0xFC)] }

theorem test_available : [lastObserved (exec .available State.reset), lastObserved (exec .available delivered)] =
    [some ⟨[0x00, 0x00], none⟩, some ⟨[0x00, 0x01], none⟩] := by decide

theorem test_receive : [lastObserved (exec .receive State.reset), lastObserved (exec .receive delivered)] =
    [some ⟨[0x05], none⟩, some ⟨[0x00, 0x07, 0xFF, 0xFF, 0x00, 0x00, 0x8A, 0xFC], none⟩] := by decide

/-! ### SET_MODE, START_CAD, IS_CHANNEL_BUSY, GET_MODE (95_test_vectors.md section 2.7) -/

/-- The table's column of mode Rx: Sleep Rejected, Idle Ok, Tx Rejected, Rx Ok, Cad Ok. -/
theorem test_setMode_from_rx :
    [Mode.sleep, .idle, .tx, .rx, .cad].map (fun m => (nextState? (exec (.setMode m) (inMode .rx))).map
      fun t => (t.mode, t.env.observed.map (·.response))) =
      [some (.rx, [[0x03]]), some (.idle, [[0x00]]), some (.rx, [[0x03]]), some (.rx, [[0x00]]),
       some (.cad, [[0x00]])] := by decide

/-- The table's row of mode Cad: every other mode Rejected. -/
theorem test_setMode_from_cad :
    [Mode.sleep, .idle, .tx, .rx, .cad].map (fun m => lastObserved (exec (.setMode m) (inMode .cad))) =
      [some ⟨[0x03], none⟩, some ⟨[0x03], none⟩, some ⟨[0x03], none⟩, some ⟨[0x03], none⟩, some ⟨[0x00], none⟩] := by
  decide

/-- Rule R249, example: in Rx with tick_count = 100. -/
theorem test_startCad : (nextState? (exec .startCad { inMode .rx with tickCount := 100 })).map
    (fun t => (t.mode, t.lastBusy)) = some (.cad, 100) := by decide

theorem test_isChannelBusy :
    [Mode.sleep, .idle, .tx, .rx, .cad].map (fun m => lastObserved (exec .isChannelBusy (inMode m))) =
      [some ⟨[0x00, 0x00], none⟩, some ⟨[0x00, 0x00], none⟩, some ⟨[0x00, 0x01], none⟩, some ⟨[0x00, 0x01], none⟩,
       some ⟨[0x00, 0x01], none⟩] := by decide

/-- Rule R257: the difference wraps. -/
theorem test_isChannelBusy_wraps : lastObserved (exec .isChannelBusy
    { inMode .rx with tickCount := 5, lastBusy := 0xFFFFFFFF, cadTimeout := 6 }) = some ⟨[0x00, 0x00], none⟩ := by
  decide

theorem test_getMode : [Mode.sleep, .idle, .tx, .rx, .cad].map (fun m => lastObserved (exec .getMode (inMode m))) =
    [some ⟨[0x00, 0x00], none⟩, some ⟨[0x00, 0x01], none⟩, some ⟨[0x00, 0x02], none⟩, some ⟨[0x00, 0x03], none⟩,
     some ⟨[0x00, 0x04], none⟩] := by decide

/-! ### Witnesses: the hypotheses of each statement met together -/

theorem test_witness_DecodeOfEncode : (Instr.send (List.replicate 255 0xFF)).wellFormed = true := by decide +kernel

theorem test_witness_DecodedBytesAreTheEncoding :
    decode [0x20, 0x01, 0x78, 0x10] = .instr (.send [0x78]) [0x10] := by decide

theorem test_witness_IllegalWords_legal :
    (0x64 : Byte) ∈ ([0x10, 0x20, 0x30, 0x40, 0x50, 0x60, 0x61, 0x62, 0x63, 0x64, 0x70, 0x80, 0x90, 0xA0] : List Byte) := by
  decide

theorem test_witness_IllegalWords_reserved :
    (0x65 : Byte) ∉ ([0x10, 0x20, 0x30, 0x40, 0x50, 0x60, 0x61, 0x62, 0x63, 0x64, 0x70, 0x80, 0x90, 0xA0] : List Byte) := by
  decide

theorem test_witness_StepRunsTheDecodedInstruction :
    (offered [0x20, 0x01, 0x78, 0x10]).env.pending = encode (.send [0x78]) ++ [0x10] ∧
      (Instr.send [0x78]).wellFormed = true := by decide

theorem test_witness_IllegalWordChangesNoState : (offered [0xB0, 0x10]).env.pending = 0xB0 :: [0x10] ∧
    (0xB0 : Byte) ∉ ([0x10, 0x20, 0x30, 0x40, 0x50, 0x60, 0x61, 0x62, 0x63, 0x64, 0x70, 0x80, 0x90, 0xA0] : List Byte) := by
  decide

theorem test_witness_StepWaitsForAWholeTransaction :
    (Instr.send [0x78, 0x79]).wellFormed = true ∧ ([0x79] : List Byte) ≠ [] ∧
      (offered [0x20, 0x02, 0x78]).env.pending ++ [0x79] = encode (.send [0x78, 0x79]) := by decide

theorem test_witness_SingleBitErrorInASymbolIsInvalid : 11 < 12 := by decide

theorem test_witness_CrcDetectsOneChangedByte : (0x8A : Byte) ≠ 0x8B ∧
    crcCheck ([0x07, 0xFF, 0xFF, 0x00, 0x00] ++ 0x8A :: [0xFC]) = true := by decide +kernel

theorem test_witness_SendAssemblesTheFrame_busy : (inMode .tx).mode = .tx := rfl

theorem test_witness_SendAssemblesTheFrame_tooLong :
    (inMode .cad).mode ≠ .tx ∧ 60 < (List.replicate 61 (0 : Byte)).length := by decide

theorem test_witness_SendAssemblesTheFrame_ok :
    (inMode .cad).mode ≠ .tx ∧ (List.replicate 60 (0 : Byte)).length ≤ 60 := by decide

theorem test_witness_TickInTxRunsThePump_hold : (sender 1 7).mode = .tx ∧ (sender 1 7).txSample ≠ 0 := by decide

theorem test_witness_TickInTxRunsThePump_drain :
    (sender 6 0).mode = .tx ∧ (sender 6 0).txSample = 0 ∧ (sender 6 0).txBitIndex = 6 * (sender 6 0).txLen := by decide

theorem test_witness_TickInTxRunsThePump_emit :
    (sender 5 0).mode = .tx ∧ (sender 5 0).txSample = 0 ∧ (sender 5 0).txBitIndex ≠ 6 * (sender 5 0).txLen ∧
      0x2A = readTxb (sender 5 0) ((sender 5 0).txBitIndex / 6) := by decide

theorem test_witness_BitScheduleOfATransmission :
    State.reset.mode ≠ .tx ∧ hello.length ≤ 60 ∧ 1 ≤ State.reset.tpb ∧ 203 < 6 * (10 + 2 * (7 + hello.length)) ∧
      203 * State.reset.tpb + 1 ≤ 1632 ∧ 1632 ≤ (203 + 1) * State.reset.tpb := by decide

theorem test_witness_DrainTimeOfATransmission :
    State.reset.mode ≠ .tx ∧ hello.length ≤ 60 ∧ 1 ≤ State.reset.tpb := by decide

theorem test_witness_TransmissionCannotBeDisturbed : ∃ t, (sender 3 2).mode = .tx ∧
    Instr.setMode .idle ≠ .tick ∧ exec (.setMode .idle) (sender 3 2) = .next t := ⟨_, rfl, by decide, rfl⟩

theorem test_witness_TransmissionCannotBeCancelled : ∃ t, (sender 6 0).mode = .tx ∧
    exec .tick (sender 6 0) = .next t ∧ t.mode ≠ .tx := ⟨_, rfl, rfl, by decide⟩

theorem test_witness_RampIncrementTable : 2 ≤ 16 ∧ 16 ≤ 16 ∧ 79 < 80 ∧ 80 ≤ 80 := by decide

theorem test_witness_TickWithinABitWindow :
    (receiver 131 true 4 0x000 true).mode = .rx ∧ true = rxIn (receiver 131 true 4 0x000 true) ∧
      151 = (receiver 131 true 4 0x000 true).rxRamp + rampInc 8 (true != true) 131 ∧ 151 < 160 := by decide

theorem test_witness_BusyEventAndCadExit : ∃ t, (receiver 0 false 0 0x000 true).mode = .rx ∧
    exec .tick (receiver 0 false 0 0x000 true) = .next t := ⟨_, rfl, rfl⟩

theorem test_witness_ListeningTickDrawsOnce : ∃ t, (receiver 140 false 3 0x000 false).mode = .rx ∧
    exec .tick (receiver 140 false 3 0x000 false) = .next t := ⟨_, rfl, rfl⟩

/-- The reset state in Rx, with a CAD timeout of one tick and a low line, meets the invariant. -/
def quietReceiver : State :=
  { State.reset with mode := .rx, cadTimeout := 1, env := { Env.empty with rxDraws := [false] } }

theorem quietReceiver_inv : StateInv quietReceiver where
  config := by decide
  tx := ⟨by decide, by decide, by decide, by decide, by decide, rfl, by simp [quietReceiver, State.reset],
    by simp [quietReceiver, State.reset]⟩
  pll := ⟨by decide, by decide⟩
  frame := ⟨by decide, by decide, by decide, rfl, by simp [quietReceiver, State.reset],
    by simp [quietReceiver, State.reset], by decide, by decide, by decide, by decide⟩
  cad := by decide

theorem test_witness_IntegratorAndRampBounds : StateInv quietReceiver := quietReceiver_inv

theorem test_witness_EveryStepAnswersAndKeepsTheInvariant : StateInv quietReceiver := quietReceiver_inv

theorem test_witness_QuietCadLastsCadTimeoutTicks :
    StateInv quietReceiver ∧ quietReceiver.mode = .rx ∧ quietReceiver.cadBusySource = .rxHigh ∧
      quietReceiver.env.rxDraws = List.replicate quietReceiver.cadTimeout false ++ [] :=
  ⟨quietReceiver_inv, rfl, rfl, rfl⟩

/-- A receiver at a bit tick whose bit is 0, in the given frame state. -/
def atBit (w : Window) (active good : Bool) (bits bufLen count : Nat) (rxb : Memory) : State :=
  { receiver 140 false 0 w false with
    rxActive := active, rxGood := good, rxBitCount := bits, rxBufLen := bufLen, rxCount := count, rxb := rxb }

theorem test_witness_DeliveredFrameIsHeld :
    IsBitTick (atBit 0x000 false true 0 7 7 []) ∧ (atBit 0x000 false true 0 7 7 []).rxActive = false ∧
      (atBit 0x000 false true 0 7 7 []).rxGood = true := by decide

theorem test_witness_SyncAcquiresTheStartSymbol_found :
    IsBitTick (atBit 0xD9C false false 0 0 0 []) ∧ nextWindow (atBit 0xD9C false false 0 0 0 []) = 0xB38 := by decide

theorem test_witness_SyncAcquiresTheStartSymbol_not :
    IsBitTick (atBit 0x59D false false 0 0 0 []) ∧ nextWindow (atBit 0x59D false false 0 0 0 []) ≠ 0xB38 := by decide

theorem test_witness_BitOfAByteIsCounted :
    IsBitTick (atBit 0x000 true false 10 0 0 []) ∧ (atBit 0x000 true false 10 0 0 []).rxActive = true ∧
      (atBit 0x000 true false 10 0 0 []).rxBitCount ≠ 11 := by decide

theorem test_witness_InvalidSymbolOrLengthAborts_symbol :
    IsBitTick (atBit 0x000 true false 11 3 9 []) ∧ (atBit 0x000 true false 11 3 9 []).rxBitCount = 11 ∧
      decodePair (nextWindow (atBit 0x000 true false 11 3 9 [])) = none := by decide

/-- The pairs of the bytes 0x06 (`0D 1A`) and 0x44 (`16 16`) end in a 0 bit. -/
theorem test_witness_InvalidSymbolOrLengthAborts_length :
    IsBitTick (atBit 0x1AD true false 11 0 0 []) ∧ (atBit 0x1AD true false 11 0 0 []).rxActive = true ∧
      decodePair (nextWindow (atBit 0x1AD true false 11 0 0 [])) = some 0x06 ∧ (0x06 : Byte).toNat < 7 ∧
      decodePair (nextWindow (atBit 0x2CB true false 11 0 0 [])) = some 0x44 ∧ 67 < (0x44 : Byte).toNat := by decide

/-- The pairs of the bytes 0x07 (`0D 1C`) and 0x42 (`16 13` ends in 1, so 0x4A, `16 26`) end in a 0 bit. -/
theorem test_witness_ByteIsAppended_first :
    IsBitTick (atBit 0x1AE true false 11 0 0 []) ∧ (atBit 0x1AE true false 11 0 0 []).rxActive = true ∧
      decodePair (nextWindow (atBit 0x1AE true false 11 0 0 [])) = some 0x07 ∧ 7 ≤ (0x07 : Byte).toNat ∧
      (0x07 : Byte).toNat ≤ 67 := by decide

theorem test_witness_ByteIsAppended_later :
    IsBitTick (atBit 0x2D3 true false 11 65 67 []) ∧ (atBit 0x2D3 true false 11 65 67 []).rxActive = true ∧
      decodePair (nextWindow (atBit 0x2D3 true false 11 65 67 [])) = some 0x4A ∧
      (atBit 0x2D3 true false 11 65 67 []).rxBufLen ≠ 0 ∧ (atBit 0x2D3 true false 11 65 67 []).rxBufLen < 67 ∧
      (atBit 0x2D3 true false 11 65 67 []).rxBufLen + 1 ≠ (atBit 0x2D3 true false 11 65 67 []).rxCount := by decide

/-- The last byte 0xFC (`34 2A`) of scenario S1's frame; another body makes the check fail. -/
def lastByte (flags : Byte) : State :=
  atBit 0x695 true false 11 6 7 [(0, 0x07), (1, 0xFF), (2, 0xFF), (3, 0x00), (4, flags), (5, 0x8A)]

theorem test_witness_LastByteIsVerified :
    IsBitTick (lastByte 0x00) ∧ (lastByte 0x00).rxActive = true ∧ (lastByte 0x00).rxBitCount = 11 ∧
      decodePair (nextWindow (lastByte 0x00)) = some 0xFC ∧ (lastByte 0x00).rxBufLen ≠ 0 ∧
      (lastByte 0x00).rxBufLen < 67 ∧ (lastByte 0x00).rxBufLen + 1 = (lastByte 0x00).rxCount ∧
      [0x07, 0xFF, 0xFF, 0x00, 0x00, 0x8A] = readRxb (lastByte 0x00) (lastByte 0x00).rxBufLen := by
  decide

theorem test_witness_LastByteIsVerified_good_and_bad :
    crc16 ([0x07, 0xFF, 0xFF, 0x00, 0x00, 0x8A] ++ [0xFC]) = 0xF0B8 ∧
      [0x07, 0xFF, 0xFF, 0x00, 0x01, 0x8A] = readRxb (lastByte 0x01) (lastByte 0x01).rxBufLen ∧
      crc16 ([0x07, 0xFF, 0xFF, 0x00, 0x01, 0x8A] ++ [0xFC]) ≠ 0xF0B8 := by decide +kernel

theorem test_witness_FrameSentIsTheFrameDelivered :
    (List.replicate 60 (0xA5 : Byte)).length ≤ 60 ∧ (atBit 0xB38 true false 0 0 0 []).rxActive = true ∧
      (atBit 0xB38 true false 0 0 0 []).rxGood = false ∧ (atBit 0xB38 true false 0 0 0 []).rxBitCount = 0 ∧
      (atBit 0xB38 true false 0 0 0 []).rxBufLen = 0 := by decide

theorem test_witness_ReceiveDrainsTheFrame_empty : State.reset.rxGood = false := rfl

theorem test_witness_ReceiveDrainsTheFrame_frame :
    delivered.rxGood = true ∧
      [0x07, 0xFF, 0xFF, 0x00, 0x00, 0x8A, 0xFC] = readRxb delivered delivered.rxCount := by decide

theorem test_witness_DeliveredFrameSurvivesUntilReceive : ∃ t, delivered.rxGood = true ∧
    delivered.rxActive = false ∧ Instr.send hello ≠ .receive ∧ exec (.send hello) delivered = .next t :=
  ⟨_, rfl, rfl, by decide, rfl⟩

theorem test_witness_ViewsOfASentFrame : (List.replicate 60 (0xA5 : Byte)).length ≤ 60 := by decide

theorem test_witness_TickInSleepOrIdleOnlyCounts :
    (inMode .sleep).mode = .sleep ∧ (inMode .idle).mode = .idle := ⟨rfl, rfl⟩

theorem test_witness_EveryModeChangeIsInTheTable : ∃ t, exec (.setMode .rx) State.reset = .next t ∧
    t.mode ≠ State.reset.mode := ⟨_, rfl, by decide⟩

theorem test_witness_EveryModeChangeIsInTheTable_refused : ∃ t, exec .startCad State.reset = .next t ∧
    t.mode = State.reset.mode := ⟨_, rfl, rfl⟩

theorem test_witness_SetModeOfEveryPair_same : Mode.cad = (inMode .cad).mode ∧ Mode.cad ≠ .tx := by decide

theorem test_witness_SetModeOfEveryPair_plain :
    ((inMode .sleep).mode = .sleep ∧ Mode.idle = .idle) ∧ ((inMode .idle).mode = .idle ∧ Mode.sleep = .sleep) ∧
      (inMode .rx).mode = .rx := by decide

theorem test_witness_SetModeOfEveryPair_toRx : (inMode .idle).mode = .idle ∧ Mode.rx = .rx := by decide

theorem test_witness_SetModeOfEveryPair_toCad : (inMode .rx).mode = .rx ∧ Mode.cad = .cad := by decide

theorem test_witness_SetModeOfEveryPair_rejected : (inMode .cad).mode = .cad ∧ Mode.rx ≠ .cad := by decide

theorem test_witness_StartCadOfEveryMode : (inMode .cad).mode = .cad ∧ (inMode .rx).mode = .rx ∧
    (inMode .sleep).mode ≠ .cad ∧ (inMode .sleep).mode ≠ .rx := by decide

theorem test_witness_IsChannelBusyOfEveryMode : (inMode .tx).mode = .tx ∧ (inMode .rx).mode = .rx ∧
    (inMode .sleep).mode = .sleep := by decide

theorem test_witness_IsChannelBusyOfEveryMode_cad :
    ({ quietReceiver with mode := .cad }).mode = .cad ∧ StateInv { quietReceiver with mode := .cad } :=
  ⟨rfl, by decide, { quietReceiver_inv.tx with running := by decide, low := by decide },
    { quietReceiver_inv.pll with }, { quietReceiver_inv.frame with }, by decide⟩

theorem test_witness_GetModeReadsTheCode : (inMode .sleep).mode = .sleep ∧ (inMode .idle).mode = .idle ∧
    (inMode .tx).mode = .tx ∧ (inMode .rx).mode = .rx ∧ (inMode .cad).mode = .cad := by decide

theorem test_witness_SleepBehavesAsIdle : ∃ t, State.reset.mode = .idle ∧ Instr.send hello ≠ .getMode ∧
    (∀ m, Instr.send hello ≠ .setMode m) ∧ exec (.send hello) State.reset = .next t :=
  ⟨_, rfl, by decide, (fun m h => by cases h), rfl⟩

theorem test_witness_SleepBehavesAsIdle_left : ∃ t, (inMode .sleep).mode = .sleep ∧
    exec (.setMode .idle) (inMode .sleep) = .next t ∧ t.mode ≠ .sleep := ⟨_, rfl, rfl, by decide⟩

theorem test_witness_RxLineIsIgnoredOutsideRxAndCad : ∃ t, (sender 3 2).mode ≠ .rx ∧ (sender 3 2).mode ≠ .cad ∧
    exec .tick (sender 3 2) = .next t := ⟨_, by decide, by decide, rfl⟩

theorem test_witness_OnlyTheListedOperationsWrite : ∃ t, exec .available delivered = .next t ∧
    Instr.available ≠ .tick ∧ Instr.available ≠ .receive ∧ Instr.available ≠ .startCad ∧
    (∀ m, Instr.available ≠ .setMode m) ∧ (∀ p, Instr.available ≠ .send p) ∧
    (∀ d f n g, Instr.available ≠ .setHeader d f n g) :=
  ⟨_, rfl, by decide, by decide, by decide, (fun m h => by cases h), (fun p h => by cases h),
    (fun d f n g h => by cases h)⟩

theorem test_witness_RefusedOperationChangesNothing : ∃ t, exec (.setMode .tx) State.reset = .next t ∧
    t.env.observed = State.reset.env.observed ++ [⟨[0x03], none⟩] ∧
    (⟨[0x03], none⟩ : Observation).response.head? ≠ some 0x00 := ⟨_, rfl, rfl, by decide⟩

theorem test_witness_ConstructionMeetsTheInvariant : ∃ t, construct { tpb := 16, cadTimeout := 1 } = .next t :=
  ⟨_, rfl⟩

theorem test_witness_ConstructionSetsTheResetValues :
    ({ tpb := 8, seed := some 1 } : ResetArgs).seed ≠ none ∧ ({ tpb := 1 } : ResetArgs).tpb < 2 ∧
      16 < ({ tpb := 17 } : ResetArgs).tpb ∧ ({ tpb := 8, cadTimeout := 0 } : ResetArgs).cadTimeout < 1 ∧
      2 ^ 32 ≤ ({ tpb := 8, cadTimeout := 2 ^ 32 } : ResetArgs).cadTimeout ∧
      Config.Legal 2 (2 ^ 32 - 1) := by decide

theorem test_witness_GhostEventsAreNotState : ∃ t, exec .tick (atBit 0xD9C false false 0 0 0 []) = .next t :=
  ⟨_, rfl⟩

/-- A state no run reaches still answers: the rules give TICK and RECEIVE one result in every state (R292). -/
theorem test_receive_beyond_the_buffer :
    (nextState? (exec .receive { State.reset with rxGood := true, rxCount := 68 })).map
      (fun s => (s.rxGood, s.rxCount)) = some (false, 0) := by decide

/-- An entry nothing has written holds its free value (rule R310, U3). -/
theorem test_unwritten_entries_are_free : readTxb State.reset 149 = Config.freeTxb 149 ∧
    readRxb State.reset 2 = [Config.freeRxb 0, Config.freeRxb 1] := ⟨rfl, rfl⟩

theorem test_witness_EveryOperationAnswersInEveryState :
    (inMode .cad).mode = .cad ∧ Mode.idle ≠ .cad ∧ (inMode .tx).mode ≠ .rx ∧ (inMode .tx).mode ≠ .cad ∧
      decode (offered [0x65, 0x10]).env.pending = .illegal (.reservedMode 0x5) [0x10] := by decide

theorem test_witness_BufferEntriesHoldWhatWasWritten :
    IsBitTick (atBit 0x2D3 true false 11 67 70 []) ∧ (atBit 0x2D3 true false 11 67 70 []).rxActive = true ∧
      decodePair (nextWindow (atBit 0x2D3 true false 11 67 70 [])) = some 0x4A ∧
      67 ≤ (atBit 0x2D3 true false 11 67 70 []).rxBufLen := by decide

theorem test_witness_BufferTailsAreNeverRead : ∃ t, StateInv quietReceiver ∧
    (∀ a, a < quietReceiver.txLen → Memory.read [(149, 0x3F)] a = quietReceiver.txb.read a) ∧
    (∀ a, a < quietReceiver.rxBufLen → Memory.read [(66, 0xFF)] a = quietReceiver.rxb.read a) ∧
    exec .tick quietReceiver = .next t :=
  ⟨_, quietReceiver_inv, (fun a h => absurd h (Nat.not_lt_zero a)), (fun a h => absurd h (Nat.not_lt_zero a)), rfl⟩

end Sys2Proof.Tests
end

section
/-! PROOFS of the family 00_scope: the bounds of the demodulator's sums, what a refused operation leaves,
and the contents of the two buffers. -/

namespace Sys2Proof.Machine

/-! ### Bounds of the integrator and of the ramp sum (rules R13, R29, R30) -/

/-- The longest bit window, in ticks, of a legal `TPB` (the last column of the table of rule R13). -/
def longestWindow (tpb : Nat) : Nat :=
  [3, 4, 5, 7, 8, 11, 12, 15, 17, 22, 27, 34, 48, 88, 88].getD (tpb - 2) 0

/-- In as many ticks as the longest window has, even the slowest ramp wraps. -/
theorem rampLen_le_slowestRamp_longestWindow {tpb : Nat} (h2 : 2 ≤ tpb) (h16 : tpb ≤ 16) :
    rampLen ≤ slowestRamp tpb (longestWindow tpb) := by
  interval_cases tpb <;> decide

/-- Fewer samples are integrated than the slowest ramp takes ticks to wrap, since the ramp has not wrapped. -/
theorem rxIntegrator_lt_of_slowestRamp_wraps {s : State} {count : Nat} (h : PllInv s)
    (hwrap : rampLen ≤ slowestRamp s.tpb count) : s.rxIntegrator < count := by
  by_contra hge
  have hmono : slowestRamp s.tpb count ≤ slowestRamp s.tpb s.rxIntegrator := slowestRamp_mono (by omega)
  have hpace := h.pace
  have hramp := h.ramp
  omega

/-- One tick adds at most the advanced increment to a ramp below its wrap. -/
theorem rampSum_le_advance {s : State} (h : s.rxRamp < rampLen) (level : Bool) :
    rampSum s level ≤ 159 + rampAdvance s.tpb := by
  have hinc : rampInc s.tpb (level != s.rxLastSample) s.rxRamp ≤ rampAdvance s.tpb :=
    (rampInc_bounds _ _).2.2
  have hramp : s.rxRamp < 160 := h
  unfold rampSum
  omega

/-- Settles O26: the pace invariant bounds the samples of a bit window by the ticks of the slowest ramp. -/
theorem integratorAndRampBounds : Obligations.IntegratorAndRampBounds := by
  intro s level h
  obtain ⟨h2, h16, -, -⟩ := h.config
  refine ⟨?_, rampSum_le_advance h.pll.ramp level, rampSum_le h2 h16 h.pll.ramp level⟩
  have hlt : s.rxIntegrator < longestWindow s.tpb :=
    rxIntegrator_lt_of_slowestRamp_wraps h.pll (rampLen_le_slowestRamp_longestWindow h2 h16)
  have hlevel : level.toNat ≤ 1 := Bool.toNat_le level
  unfold longestWindow at hlt
  omega

/-! ### What a refused operation leaves (rules R16, R281, R289) -/

/-- `t` answers in `s` with some response, either with status Ok or with nothing else changed. -/
def OkOrUnchanged (s t : State) : Prop :=
  ∃ (u : State) (status : Status) (data : List Byte) (out : Option Bool),
    t = respond u status data out ∧ (status = .ok ∨ u = s)

theorem OkOrUnchanged.of_ok {s : State} (u : State) (data : List Byte) (out : Option Bool) :
    OkOrUnchanged s (respond u .ok data out) := ⟨u, .ok, data, out, rfl, .inl rfl⟩

theorem OkOrUnchanged.of_unchanged (s : State) (status : Status) (data : List Byte) (out : Option Bool) :
    OkOrUnchanged s (respond s status data out) := ⟨s, status, data, out, rfl, .inr rfl⟩

theorem startCad_okOrUnchanged (s : State) : OkOrUnchanged s (answer (startCad s)) := by
  rcases startCad_cases s with ⟨-, h⟩ | ⟨-, h⟩ | ⟨-, -, h⟩ <;> rw [h]
  · exact .of_ok _ _ _
  · exact .of_ok _ _ _
  · exact .of_unchanged _ _ _ _

theorem setMode_okOrUnchanged (m : Mode) (s : State) : OkOrUnchanged s (answer (setMode m s)) := by
  rcases setMode_cases m s with h | ⟨-, h⟩ | ⟨-, -, h⟩
  · exact ⟨_, _, _, _, rfl, .inr h⟩
  · rw [h]; exact .of_ok _ _ _
  · rw [h]; exact .of_ok _ _ _

theorem execSend_okOrUnchanged {payload : List Byte} {s t : State} (h : execSend payload s = .next t) :
    OkOrUnchanged s t := by
  unfold execSend at h
  split at h
  · cases h; exact .of_unchanged _ _ _ _
  · split at h
    · cases h; exact .of_unchanged _ _ _ _
    · cases h; exact .of_ok _ _ _

theorem execReceive_okOrUnchanged {s t : State} (h : execReceive s = .next t) : OkOrUnchanged s t := by
  unfold execReceive at h
  split at h
  · cases h; exact .of_ok _ _ _
  · cases h; exact .of_unchanged _ _ _ _

/-- Every operation answers Ok or changes nothing but the observation. -/
theorem exec_okOrUnchanged {i : Instr} {s t : State} (h : exec i s = .next t) : OkOrUnchanged s t := by
  cases i with
  | tick => cases h; exact .of_ok _ _ _
  | send payload => exact execSend_okOrUnchanged h
  | setHeader dest src ident flags => cases h; exact .of_ok _ _ _
  | available => cases h; exact .of_ok _ _ _
  | receive => exact execReceive_okOrUnchanged h
  | setMode m => cases h; exact setMode_okOrUnchanged m s
  | startCad => cases h; exact startCad_okOrUnchanged s
  | isChannelBusy => cases h; exact .of_ok _ _ _
  | txDone => cases h; exact .of_ok _ _ _
  | getMode => cases h; exact .of_ok _ _ _

/-- The response a transaction adds to the observation is the one it was answered with. -/
theorem respond_observed_last {u : State} {status : Status} {data : List Byte} {out : Option Bool}
    {before : List Observation} {o : Observation}
    (h : (respond u status data out).env.observed = before ++ [o]) : o.response = responseBytes status data := by
  rw [respond_env] at h
  exact congrArg Observation.response (List.append_singleton_inj.mp h).2.symm

/-- Settles O49: an operation that does not answer Ok is one that leaves the state to `respond` alone. -/
theorem refusedOperationChangesNothing : Obligations.RefusedOperationChangesNothing := by
  intro i s t o hexec hobs hstatus
  obtain ⟨u, status, data, out, rfl, hok | hsame⟩ := exec_okOrUnchanged hexec
  · subst hok
    exact absurd (congrArg List.head? (respond_observed_last hobs)) hstatus
  · subst hsame
    rfl

/-! ### What the buffers hold (rules R15, R23, R35) -/

/-- An entry is the byte written there, or the free value of its index. -/
theorem Memory.entry_eq_match (m : Memory) (free : Nat → Byte) (a : Nat) :
    m.entry free a = match m.read a with | some v => v | none => free a := by
  unfold Memory.entry
  cases m.read a <;> rfl

/-- There is no entry of `RXB` from 67 on to write (log 5). -/
theorem writeRxb_of_le {index : Nat} (s : State) (h : rxBufCap ≤ index) (v : Byte) : writeRxb s index v = s :=
  if_neg (Nat.not_lt.mpr h)

@[simp] theorem verify_rxb (s : State) : (verify s).rxb = s.rxb := by
  unfold verify; split <;> simp

/-- `RXB` after `APPEND` is as the stored byte leaves it. -/
theorem append_rxb (s : State) (v : Byte) : (append s v).rxb = (writeRxb s s.rxBufLen v).rxb := by
  unfold append; split <;> simp

theorem takeByte_rxb_of_full {s : State} (h : rxBufCap ≤ s.rxBufLen) (v : Byte) :
    (takeByte s v).rxb = s.rxb := by
  have hne : s.rxBufLen ≠ 0 := by unfold rxBufCap at h; omega
  rw [takeByte, if_neg hne, append_rxb, writeRxb_of_le s h]

theorem byteStep_rxb_of_full {s : State} (h : rxBufCap ≤ s.rxBufLen) : (byteStep s).rxb = s.rxb := by
  unfold byteStep
  split
  · split
    · simp
    · exact takeByte_rxb_of_full (s := { s with rxBitCount := 0 }) h _
  · rfl

theorem frameStep_rxb_of_full {s : State} (h : rxBufCap ≤ s.rxBufLen) : (frameStep s).rxb = s.rxb := by
  unfold frameStep
  split
  · exact byteStep_rxb_of_full h
  · split
    · rfl
    · exact syncTest_rxb s

/-- A tick of the demodulator writes no entry of a full `RXB`. -/
theorem pllStep_rxb_of_full {s : State} (h : rxBufCap ≤ s.rxBufLen) (level : Bool) :
    (pllStep level s).rxb = s.rxb := by
  unfold pllStep
  split
  · rw [frameStep_rxb_of_full (by simpa using h), bitOut_rxb]
  · exact withinBit_rxb s level

@[simp] theorem rxTick_rxb (level : Bool) (s : State) : (rxTick level s).rxb = (pllStep level s).rxb := by
  simp [rxTick]

/-- In Rx and Cad alike a tick counts, samples the line and runs `RX_TICK` (rules R241, R244). -/
theorem tick_of_listening {s : State} (h : listening s.mode = true) :
    tick s = rxTick (rxIn s) (consumeRx (countTick s)) := by
  unfold tick
  cases hm : s.mode with
  | rx => rfl
  | cad => rfl
  | sleep => simp [hm, listening] at h
  | idle => simp [hm, listening] at h
  | tx => simp [hm, listening] at h

/-- No tick in Rx or Cad writes an entry of a full `RXB`. -/
theorem tick_rxb_of_full {s : State} (hl : listening s.mode = true) (h : rxBufCap ≤ s.rxBufLen) :
    (tick s).rxb = s.rxb := by
  rw [tick_of_listening hl, rxTick_rxb, pllStep_rxb_of_full (by simpa using h), consumeRx_rxb, countTick_rxb]

/-- Settles O55: an entry is read as written or free, and a byte completed with 67 held is not stored. -/
theorem bufferEntriesHoldWhatWasWritten : Obligations.BufferEntriesHoldWhatWasWritten := by
  intro s
  refine ⟨fun a => Memory.entry_eq_match s.txb _ a, fun count => ⟨Memory.entries_length _ _ _, fun a ha => ?_⟩,
    fun v hbit _ _ _ hfull => ⟨_, rfl, tick_rxb_of_full hbit.1 hfull⟩⟩
  exact (Memory.entries_getElem? s.rxb _ ha).trans (congrArg some (Memory.entry_eq_match s.rxb _ a))

end Sys2Proof.Machine
end

section
/-! PROOFS of the family 10_state: what each operation does to the state and what every step keeps. -/

namespace Sys2Proof.Machine

/-! ### What an operation can do -/

/-- The three kinds of mode a `TICK` tells apart (rules R242 to R244). -/
theorem mode_cases (m : Mode) :
    (m ≠ .tx ∧ listening m = false) ∨ m = .tx ∨ (m ≠ .tx ∧ listening m = true) := by
  cases m <;> decide

/-- A tick in Sleep or Idle only counts (rule R242). -/
theorem tick_of_resting {s : State} (htx : s.mode ≠ .tx) (hl : listening s.mode = false) :
    tick s = countTick s := by
  unfold tick
  cases hm : s.mode with
  | sleep => rfl
  | idle => rfl
  | tx => exact absurd hm htx
  | rx => simp [hm, listening] at hl
  | cad => simp [hm, listening] at hl

/-- A tick in Tx counts and runs the pump (rule R243). -/
theorem tick_of_tx {s : State} (h : s.mode = .tx) : tick s = txStep (countTick s) := by
  simp only [tick, h]

/-- Whatever START_CAD does, it does by entering Cad from Rx. -/
theorem startCad_enters (s : State) :
    (startCad s).2 = s ∨ (s.mode = .rx ∧ (startCad s).2 = enter .cad s) := by
  unfold startCad
  split
  · exact .inl rfl
  · split
    · exact .inr ⟨‹_›, rfl⟩
    · exact .inl rfl

/-- Whatever SET_MODE does, it does by entering the mode asked for, and neither mode is Tx. -/
theorem setMode_enters (m : Mode) (s : State) :
    (setMode m s).2 = s ∨ (s.mode ≠ .tx ∧ m ≠ .tx ∧ (setMode m s).2 = enter m s) := by
  by_cases hs : s.mode = .tx
  · exact .inl (by simp [setMode, hs])
  by_cases hm : m = .tx
  · exact .inl (by simp [setMode, hm])
  unfold setMode
  rw [if_neg hs, if_neg hm]
  split
  · exact .inl rfl
  · split
    · rename_i hcad
      subst hcad
      exact (startCad_enters s).imp_right fun h => ⟨hs, hm, h.2⟩
    · split
      · exact .inr ⟨hs, hm, rfl⟩
      · exact .inl rfl

/-- What the operation `i` can do to the block in state `s`, its answer apart (rule R84). -/
inductive Effect (s : State) : Instr → State → Prop
  | unchanged (i : Instr) : Effect s i s
  | tick : Effect s .tick (tick s)
  | send {payload : List Byte} (hm : s.mode ≠ .tx) (hlen : payload.length ≤ maxMsgLen) :
      Effect s (.send payload) (startSend payload s)
  | setHeader (dest src ident flags : Byte) : Effect s (.setHeader dest src ident flags)
      { s with hdrTo := dest, hdrFrom := src, hdrId := ident, hdrFlags := flags }
  | receive (hg : s.rxGood = true) : Effect s .receive (clearDelivered s)
  | setMode {m : Mode} (hs : s.mode ≠ .tx) (hm : m ≠ .tx) : Effect s (.setMode m) (enter m s)
  | startCad (hs : s.mode = .rx) : Effect s .startCad (enter .cad s)

/-- `o` answers the operation `i` after one of its effects. -/
def Answers (i : Instr) (s : State) (o : Host.Outcome State Fault Refusal) : Prop :=
  ∃ u status data out, o = .next (respond u status data out) ∧ Effect s i u

theorem Effect.answers {i : Instr} {s u : State} (h : Effect s i u) (status : Status) (data : List Byte)
    (out : Option Bool) : Answers i s (.next (respond u status data out)) := ⟨u, status, data, out, rfl, h⟩

theorem execSend_answers (payload : List Byte) (s : State) :
    Answers (.send payload) s (execSend payload s) := by
  unfold execSend
  split
  · exact (Effect.unchanged _).answers _ _ _
  · split
    · exact (Effect.unchanged _).answers _ _ _
    · exact (Effect.send ‹_› (by omega)).answers _ _ _

theorem execReceive_answers (s : State) : Answers .receive s (execReceive s) := by
  unfold execReceive
  split
  · exact (Effect.receive ‹_›).answers _ _ _
  · exact (Effect.unchanged _).answers _ _ _

theorem setMode_effect (m : Mode) (s : State) : Effect s (.setMode m) (setMode m s).2 := by
  rcases setMode_enters m s with h | ⟨hs, hm, h⟩ <;> rw [h]
  · exact .unchanged _
  · exact .setMode hs hm

theorem startCad_effect (s : State) : Effect s .startCad (startCad s).2 := by
  rcases startCad_enters s with h | ⟨hs, h⟩ <;> rw [h]
  · exact .unchanged _
  · exact .startCad hs

/-- Every operation answers in every state, after one of its effects. -/
theorem exec_answers (i : Instr) (s : State) : Answers i s (exec i s) := by
  cases i with
  | tick => exact Effect.tick.answers _ _ _
  | send payload => exact execSend_answers payload s
  | setHeader dest src ident flags => exact (Effect.setHeader dest src ident flags).answers _ _ _
  | available => exact (Effect.unchanged _).answers _ _ _
  | receive => exact execReceive_answers s
  | setMode m => exact (setMode_effect m s).answers _ _ _
  | startCad => exact (startCad_effect s).answers _ _ _
  | isChannelBusy => exact (Effect.unchanged _).answers _ _ _
  | txDone => exact (Effect.unchanged _).answers _ _ _
  | getMode => exact (Effect.unchanged _).answers _ _ _

/-- The next state of an operation is one of its effects, answered. -/
theorem exec_effect {i : Instr} {s t : State} (h : exec i s = .next t) :
    ∃ u status data out, t = respond u status data out ∧ Effect s i u := by
  obtain ⟨u, status, data, out, hexec, heffect⟩ := exec_answers i s
  cases hexec.symm.trans h
  exact ⟨u, status, data, out, rfl, heffect⟩

/-! ### Every step keeps the invariant (rules R21, R44) -/

/-- The invariant without its channel-activity part, which a tick restores only at its end (rule R254). -/
structure BaseInv (s : State) : Prop where
  config : Config.Legal s.tpb s.cadTimeout
  tx : TxInv s
  pll : PllInv s
  frame : FrameInv s

theorem StateInv.base {s : State} (h : StateInv s) : BaseInv s := ⟨h.config, h.tx, h.pll, h.frame⟩

theorem BaseInv.withCad {s : State} (h : BaseInv s) (hcad : CadInv s) : StateInv s :=
  ⟨h.config, h.tx, h.pll, h.frame, hcad⟩

/-- The channel-activity part says nothing outside Cad. -/
theorem BaseInv.notCad {s : State} (h : BaseInv s) (hm : s.mode ≠ .cad) : StateInv s :=
  h.withCad fun hcad => absurd hcad hm

/-- The transmitter's invariant speaks of its own fields, TPB and whether the mode is Tx. -/
theorem TxInv.of_same {s t : State} (h : TxInv s) (hmode : t.mode = .tx ↔ s.mode = .tx) (htxb : t.txb = s.txb)
    (hlen : t.txLen = s.txLen) (hindex : t.txBitIndex = s.txBitIndex) (hsample : t.txSample = s.txSample)
    (hlevel : t.txLevel = s.txLevel) (htpb : t.tpb = s.tpb) : TxInv t where
  running := by rw [hlen, hmode]; exact h.running
  length := by rw [hlen]; exact h.length
  index := by rw [hindex, hlen]; exact h.index
  sample := by rw [hsample, htpb]; exact h.sample
  low := by rw [Ne, hmode, hlevel]; exact h.low
  canonical := by rw [htxb]; exact h.canonical
  capacity := by rw [htxb]; exact h.capacity
  written := by rw [htxb, hlen]; exact h.written

/-- The invariant does not speak of the boundary. -/
theorem StateInv.withEnv {s : State} (h : StateInv s) (e : Env) : StateInv { s with env := e } :=
  ⟨h.config, { h.tx with }, { h.pll with }, { h.frame with }, h.cad⟩

theorem setHeader_inv {s : State} (h : StateInv s) (dest src ident flags : Byte) :
    StateInv { s with hdrTo := dest, hdrFrom := src, hdrId := ident, hdrFlags := flags } :=
  ⟨h.config, { h.tx with }, { h.pll with }, { h.frame with }, h.cad⟩

/-- A tick has been counted and its sample taken. -/
theorem countTick_base {s : State} (h : BaseInv s) : BaseInv (countTick s) :=
  ⟨h.config, { h.tx with }, { h.pll with }, { h.frame with }⟩

theorem consumeRx_base {s : State} (h : BaseInv s) : BaseInv (consumeRx s) :=
  ⟨h.config, { h.tx with }, { h.pll with }, { h.frame with }⟩

/-- The accepted SEND. -/
theorem startSend_inv {payload : List Byte} {s : State} (h : StateInv s) (hlen : payload.length ≤ maxMsgLen) :
    StateInv (startSend payload s) :=
  BaseInv.notCad ⟨h.config, startSend_txInv hlen h.config.1 h.tx, { h.pll with }, { h.frame with }⟩ (by simp)

/-- Draining a delivered frame leaves the frame machine waiting. -/
theorem clearDelivered_inv {s : State} (h : StateInv s) (hg : s.rxGood = true) : StateInv (clearDelivered s) := by
  obtain ⟨hactive, -⟩ := h.frame.delivered hg
  refine ⟨h.config, { h.tx with }, { h.pll with }, ?_, h.cad⟩
  exact {
    bits := h.frame.bits
    length := by simp
    count := by simp
    canonical := h.frame.canonical
    capacity := h.frame.capacity
    written := by simp
    lengthByte := by simp
    delivered := by simp
    receiving := by simp [hactive]
    waiting := by simp }

/-- Right after Cad is entered no tick has been quiet, and CAD_TIMEOUT is at least 1 (rule R246). -/
theorem enter_cadInv {m : Mode} {s : State} (h : 1 ≤ s.cadTimeout) : CadInv (enter m s) := by
  intro hm
  have hm : m = .cad := hm
  simp only [quietTicks, enter_tickCount, enter_lastBusy, if_pos hm, enter_cadTimeout, BitVec.sub_self,
    BitVec.toNat_zero]
  exact h

/-- A move between two modes that are not Tx. -/
theorem enter_inv {m : Mode} {s : State} (h : StateInv s) (hs : s.mode ≠ .tx) (hm : m ≠ .tx) :
    StateInv (enter m s) where
  config := by simpa using h.config
  tx := h.tx.of_same (by simp [hs, hm]) (by simp) (by simp) (by simp) (by simp) (by simp) (by simp)
  pll := enter_pllInv h.pll
  frame := enter_frameInv h.frame
  cad := by
    obtain ⟨-, -, hcad, -⟩ := h.config
    exact enter_cadInv hcad

/-- The bit period's counter stays below TPB (rule R26). -/
theorem nextTxSample_base {s : State} (h : BaseInv s) : BaseInv (nextTxSample s) := by
  have htpb : 2 ≤ s.tpb := h.config.1
  exact ⟨h.config, { h.tx with sample := Nat.mod_lt _ (by omega) }, { h.pll with }, { h.frame with }⟩

/-- A bit is put on the line only while bits are left. -/
theorem emitBit_base {s : State} (h : BaseInv s) (hm : s.mode = .tx) (hlt : s.txBitIndex < 6 * s.txLen) :
    BaseInv (emitBit s) :=
  ⟨h.config, { h.tx with index := hlt, low := fun hne => absurd hm hne }, { h.pll with }, { h.frame with }⟩

/-- The drain leaves Tx with the transmitter at rest (rule R160). -/
theorem drain_inv {s : State} (h : BaseInv s) : StateInv (drain s) := by
  refine BaseInv.notCad ⟨by simpa [drain] using h.config, ?_, enter_pllInv { h.pll with },
    enter_frameInv { h.frame with }⟩ (by simp [drain])
  exact {
    running := by simp [drain]
    length := by simp [drain]
    index := by simp [drain]
    sample := by simpa [drain] using h.tx.sample
    low := by simp [drain]
    canonical := by simpa [drain] using h.tx.canonical
    capacity := by simpa [drain] using h.tx.capacity
    written := by simp [drain] }

/-- Each of the three steps of the pump. -/
theorem txStep_inv {s : State} (h : BaseInv s) (hm : s.mode = .tx) : StateInv (txStep s) := by
  rcases txStep_cases h.tx with ⟨-, hstep⟩ | ⟨-, -, hstep⟩ | ⟨-, hlt, hstep, -⟩ <;> rw [hstep]
  · exact (nextTxSample_base h).notCad (by simp [hm])
  · exact drain_inv h
  · exact (nextTxSample_base (emitBit_base h hm hlt)).notCad (by simp [hm])

theorem pllStep_base {s : State} (h : BaseInv s) (level : Bool) : BaseInv (pllStep level s) := by
  have hsame := pllStep_sameOutside level s
  obtain ⟨h2, h16, -, -⟩ := h.config
  obtain ⟨hpll, hframe⟩ := pllStep_keeps h2 h16 h.pll h.frame level
  refine ⟨?_, ?_, hpll, hframe⟩
  · rw [hsame.tpb, hsame.cadTimeout]; exact h.config
  · exact h.tx.of_same (by rw [hsame.mode]) hsame.txb hsame.txLen hsame.txBitIndex hsame.txSample
      hsame.txLevel hsame.tpb

theorem busyEvent_base {s : State} (h : BaseInv s) (level : Bool) : BaseInv (busyEvent level s) := by
  unfold busyEvent
  split
  · exact ⟨h.config, { h.tx with }, { h.pll with }, { h.frame with }⟩
  · exact h

/-- After the exit test the channel-activity part holds, whatever stood before (rule R254). -/
theorem cadExit_inv {s : State} (h : BaseInv s) : StateInv (cadExit s) := by
  unfold cadExit
  split
  · rename_i hcad
    split
    · exact BaseInv.notCad ⟨h.config, h.tx.of_same (by simp [hcad]) rfl rfl rfl rfl rfl rfl, { h.pll with },
        { h.frame with }⟩ (by simp)
    · rename_i hquiet
      exact h.withCad fun _ => by simpa [channelQuiet] using hquiet
  · exact h.notCad ‹_›

/-- A tick restores the invariant in every mode. -/
theorem tick_inv {s : State} (h : StateInv s) : StateInv (tick s) := by
  have hcount : BaseInv (countTick s) := countTick_base h.base
  rcases mode_cases s.mode with ⟨htx, hl⟩ | hm | ⟨-, hl⟩
  · rw [tick_of_resting htx hl]
    exact hcount.notCad fun hcad => by simp [show s.mode = .cad from hcad, listening] at hl
  · rw [tick_of_tx hm]
    exact txStep_inv hcount hm
  · rw [tick_of_listening hl]
    exact cadExit_inv (busyEvent_base (pllStep_base (consumeRx_base hcount) _) _)

/-- Every effect of an operation keeps the invariant. -/
theorem Effect.inv {i : Instr} {s u : State} (h : Effect s i u) (hs : StateInv s) : StateInv u := by
  cases h with
  | unchanged => exact hs
  | tick => exact tick_inv hs
  | send _ hlen => exact startSend_inv hs hlen
  | setHeader => exact setHeader_inv hs _ _ _ _
  | receive hg => exact clearDelivered_inv hs hg
  | setMode hm hne => exact enter_inv hs hm hne
  | startCad hm => exact enter_inv hs (by simp [hm]) (by simp)

/-- Settles O50: a step waits, answers an Illegal word, or answers after one effect of the operation decoded. -/
theorem everyStepAnswersAndKeepsTheInvariant : Obligations.EveryStepAnswersAndKeepsTheInvariant := by
  intro s hs
  unfold step
  cases decode s.env.pending with
  | instr i rest =>
    obtain ⟨u, status, data, out, hexec, heffect⟩ := exec_answers i (setPending s rest)
    exact ⟨_, hexec, (heffect.inv (hs.withEnv _)).withEnv _⟩
  | illegal _ rest => exact ⟨_, rfl, (hs.withEnv _).withEnv _⟩
  | incomplete => exact ⟨s, rfl, hs⟩

/-! ### The invariant after construction (rules R44, R310, R311) -/

/-- Construction with a legal configuration: both buffers unwritten, nothing sent or received, mode Idle. -/
theorem resetWith_inv {args : ResetArgs} (h : Config.Legal args.tpb args.cadTimeout) : StateInv (resetWith args) where
  config := h
  tx := {
    running := by simp [resetWith, State.reset]
    length := .inl rfl
    index := Nat.zero_le _
    sample := Nat.lt_of_lt_of_le Nat.zero_lt_two h.1
    low := fun _ => rfl
    canonical := rfl
    capacity := by simp [resetWith, State.reset]
    written := by simp [resetWith, State.reset] }
  pll := {
    ramp := by simp [resetWith, State.reset, rampLen]
    pace := by simp [resetWith, State.reset, slowestRamp] }
  frame := {
    bits := by simp [resetWith, State.reset]
    length := Nat.zero_le _
    count := .inl rfl
    canonical := rfl
    capacity := by simp [resetWith, State.reset]
    written := by simp [resetWith, State.reset]
    lengthByte := by simp [resetWith, State.reset]
    delivered := by simp [resetWith, State.reset]
    receiving := by simp [resetWith, State.reset]
    waiting := fun _ _ => rfl }
  cad := by simp [resetWith, State.reset]

/-- Construction that answers was given a legal configuration. -/
theorem construct_eq_next {args : ResetArgs} {t : State} (h : construct args = .next t) :
    Config.Legal args.tpb args.cadTimeout ∧ t = resetWith args := by
  unfold construct at h
  split at h
  · cases h
  · split at h
    · cases h; exact ⟨‹_›, rfl⟩
    · cases h

/-- Settles O51: the reset state is construction with the defaults. -/
theorem constructionMeetsTheInvariant : Obligations.ConstructionMeetsTheInvariant := by
  have hanswer : ∀ (args : ResetArgs) (t : State), construct args = .next t → StateInv t := by
    intro args t h
    obtain ⟨hlegal, rfl⟩ := construct_eq_next h
    exact resetWith_inv hlegal
  have hdefault : construct Config.default = .next State.reset := rfl
  exact ⟨hdefault, hanswer _ _ hdefault, hanswer⟩

/-! ### A delivered frame survives every operation but RECEIVE (rules R38, R157, R190, R226) -/

/-- `t` holds the frame delivered in `s`, the frame machine being at rest in it. -/
structure HoldsDelivered (s t : State) : Prop where
  good : t.rxGood = true
  rest : t.rxActive = false
  bytes : t.rxb = s.rxb
  held : t.rxBufLen = s.rxBufLen
  count : t.rxCount = s.rxCount

/-- The PLL reset of entering a mode spares a delivered frame (rule R190). -/
theorem enter_holdsDelivered {s : State} (hg : s.rxGood = true) (ha : s.rxActive = false) (m : Mode) :
    HoldsDelivered s (enter m s) := by
  have hreset : HoldsDelivered s (enterReset m s) := by
    unfold enterReset
    split
    · exact ⟨hg, rfl, rfl, by simp [hg], by simp [hg]⟩
    · exact ⟨hg, ha, rfl, rfl, rfl⟩
  exact { hreset with }

/-- The pump does not touch the frame machine but for the drain, which enters Rx. -/
theorem txStep_holdsDelivered {s : State} (hg : s.rxGood = true) (ha : s.rxActive = false) :
    HoldsDelivered s (txStep s) := by
  unfold txStep
  split
  · split
    · exact { enter_holdsDelivered (s := { s with txLevel := false, txLen := 0, txBitIndex := 0 }) hg ha .rx with }
    · exact ⟨hg, ha, rfl, rfl, rfl⟩
  · exact ⟨hg, ha, rfl, rfl, rfl⟩

/-- The frame machine holds a delivered frame: `FRAME_STEP` does nothing (rule R226). -/
theorem frameStep_of_delivered {s : State} (hg : s.rxGood = true) (ha : s.rxActive = false) :
    frameStep s = s := by
  simp [frameStep, hg, ha]

theorem pllStep_holdsDelivered {s : State} (hg : s.rxGood = true) (ha : s.rxActive = false) (level : Bool) :
    HoldsDelivered s (pllStep level s) := by
  unfold pllStep
  split
  · rw [frameStep_of_delivered (by simpa using hg) (by simpa using ha)]
    exact ⟨by simpa using hg, by simpa using ha, by simp, by simp, by simp⟩
  · exact ⟨hg, ha, rfl, rfl, rfl⟩

theorem tick_holdsDelivered {s : State} (hg : s.rxGood = true) (ha : s.rxActive = false) :
    HoldsDelivered s (tick s) := by
  rcases mode_cases s.mode with ⟨htx, hl⟩ | hm | ⟨-, hl⟩
  · rw [tick_of_resting htx hl]
    exact ⟨hg, ha, rfl, rfl, rfl⟩
  · rw [tick_of_tx hm]
    exact { txStep_holdsDelivered (s := countTick s) hg ha with }
  · rw [tick_of_listening hl]
    have h := pllStep_holdsDelivered (s := consumeRx (countTick s)) hg ha (rxIn s)
    exact ⟨by simpa [rxTick] using h.good, by simpa [rxTick] using h.rest, by simpa [rxTick] using h.bytes,
      by simpa [rxTick] using h.held, by simpa [rxTick] using h.count⟩

/-- Every effect but that of RECEIVE. -/
theorem Effect.holdsDelivered {i : Instr} {s u : State} (h : Effect s i u) (hg : s.rxGood = true)
    (ha : s.rxActive = false) (hi : i ≠ .receive) : HoldsDelivered s u := by
  cases h with
  | unchanged => exact ⟨hg, ha, rfl, rfl, rfl⟩
  | tick => exact tick_holdsDelivered hg ha
  | send => exact ⟨hg, ha, rfl, rfl, rfl⟩
  | setHeader => exact ⟨hg, ha, rfl, rfl, rfl⟩
  | receive => exact absurd rfl hi
  | setMode => exact enter_holdsDelivered hg ha _
  | startCad => exact enter_holdsDelivered hg ha _

/-- Settles O37: every effect but that of RECEIVE holds the frame, and the answer touches no state. -/
theorem deliveredFrameSurvivesUntilReceive : Obligations.DeliveredFrameSurvivesUntilReceive := by
  intro i s t hg ha hi hexec
  obtain ⟨u, status, data, out, rfl, heffect⟩ := exec_effect hexec
  obtain ⟨hgood, hrest, hbytes, hheld, hcount⟩ := heffect.holdsDelivered hg ha hi
  exact ⟨hgood, hrest, hbytes, hheld, hcount⟩

/-! ### Which operations write which state (rules R21, R41, R42) -/

/-- The state that no tick writes: the configuration, the header and `TXB` (rules R41, R42). -/
structure SameHostState (s t : State) : Prop where
  tpb : t.tpb = s.tpb
  cadTimeout : t.cadTimeout = s.cadTimeout
  cadBusySource : t.cadBusySource = s.cadBusySource
  hdrTo : t.hdrTo = s.hdrTo
  hdrFrom : t.hdrFrom = s.hdrFrom
  hdrId : t.hdrId = s.hdrId
  hdrFlags : t.hdrFlags = s.hdrFlags
  txb : t.txb = s.txb

theorem txStep_sameHostState (s : State) : SameHostState s (txStep s) := by
  unfold txStep
  split
  · split
    · constructor <;> simp [drain]
    · constructor <;> simp
  · constructor <;> simp

theorem rxTick_sameHostState (level : Bool) (s : State) : SameHostState s (rxTick level s) := by
  have hsame := pllStep_sameOutside level s
  constructor <;> simp [rxTick, hsame.tpb, hsame.cadTimeout, hsame.cadBusySource, hsame.hdrTo, hsame.hdrFrom,
    hsame.hdrId, hsame.hdrFlags, hsame.txb]

theorem tick_sameHostState (s : State) : SameHostState s (tick s) := by
  rcases mode_cases s.mode with ⟨htx, hl⟩ | hm | ⟨-, hl⟩
  · rw [tick_of_resting htx hl]
    constructor <;> rfl
  · rw [tick_of_tx hm]
    exact { txStep_sameHostState (countTick s) with }
  · rw [tick_of_listening hl]
    exact { rxTick_sameHostState (rxIn s) (consumeRx (countTick s)) with }

/-- Settles O48: each effect leaves the fields it does not name, and the answer touches no state. -/
theorem onlyTheListedOperationsWrite : Obligations.OnlyTheListedOperationsWrite := by
  intro i s t hexec
  obtain ⟨u, status, data, out, rfl, heffect⟩ := exec_effect hexec
  cases heffect with
  | unchanged => simp
  | tick =>
    have h := tick_sameHostState s
    simp [h.tpb, h.cadTimeout, h.cadBusySource, h.hdrTo, h.hdrFrom, h.hdrId, h.hdrFlags, h.txb]
  | send => simp
  | setHeader => simp
  | receive => simp
  | setMode => simp
  | startCad hs =>
    have hkeep : enterReset .cad s = s := enterReset_eq_self (.inr (by simp [hs, listening]))
    simp [hkeep]

/-! ### Buffer tails are never read (rules R21, R23, R35) -/

/-- The state with other contents in both buffers. -/
def withBuffers (s : State) (tx rx : Memory) : State := { s with txb := tx, rxb := rx }

/-- `m` holds in its first `count` entries what `n` holds there. -/
def AgreeBelow (count : Nat) (m n : Memory) : Prop := ∀ a, a < count → m.read a = n.read a

/-- `u` is `s` but for the entries of `TXB` from tx_len on and those of `RXB` from rx_buf_len on. -/
def SameButTails (s u : State) : Prop :=
  ∃ tx rx, u = withBuffers s tx rx ∧ AgreeBelow s.txLen tx s.txb ∧ AgreeBelow s.rxBufLen rx s.rxb

/-- An update of the state that neither reads nor writes the buffers. -/
def BufferBlind (f : State → State) : Prop := ∀ s tx rx, f (withBuffers s tx rx) = withBuffers (f s) tx rx

theorem AgreeBelow.mono {count less : Nat} {m n : Memory} (h : AgreeBelow count m n) (hle : less ≤ count) :
    AgreeBelow less m n := fun a ha => h a (by omega)

/-- Writing one byte at the end of the agreement extends it. -/
theorem AgreeBelow.write_end {count : Nat} {m n : Memory} (h : AgreeBelow count m n) (v : Byte) :
    AgreeBelow (count + 1) (m.write count v) (n.write count v) := by
  intro a ha
  rw [Memory.read_write, Memory.read_write]
  split
  · rfl
  · exact h a (by omega)

/-- A branch on a condition that does not see the buffers. -/
theorem BufferBlind.ite {c : State → Prop} [∀ s, Decidable (c s)] {f g : State → State}
    (hc : ∀ s tx rx, c (withBuffers s tx rx) ↔ c s) (hf : BufferBlind f) (hg : BufferBlind g) :
    BufferBlind fun s => if c s then f s else g s := by
  intro s tx rx
  simp only [hc s tx rx, hf s tx rx, hg s tx rx]
  exact (apply_ite (withBuffers · tx rx) _ _ _).symm

theorem BufferBlind.comp {f g : State → State} (hf : BufferBlind f) (hg : BufferBlind g) :
    BufferBlind fun s => f (g s) := by
  intro s tx rx
  simp only [hg s tx rx, hf (g s) tx rx]

/-- A blind update that lengthens neither buffer keeps the agreement. -/
theorem SameButTails.map {f : State → State} {s u : State} (h : SameButTails s u) (hf : BufferBlind f)
    (htx : (f s).txLen ≤ s.txLen) (hrx : (f s).rxBufLen ≤ s.rxBufLen) : SameButTails (f s) (f u) := by
  obtain ⟨tx, rx, rfl, htxb, hrxb⟩ := h
  have hself : f s = withBuffers (f s) s.txb s.rxb := hf s s.txb s.rxb
  have hsame : (f s).txb = s.txb ∧ (f s).rxb = s.rxb :=
    ⟨by rw [hself]; rfl, by rw [hself]; rfl⟩
  refine ⟨tx, rx, hf s tx rx, ?_, ?_⟩
  · rw [hsame.1]; exact htxb.mono htx
  · rw [hsame.2]; exact hrxb.mono hrx

/-- What does not see the buffers is the same in both states. -/
theorem SameButTails.sees {β : Type} {s u : State} (h : SameButTails s u) (g : State → β)
    (hg : ∀ s tx rx, g (withBuffers s tx rx) = g s) : g u = g s := by
  obtain ⟨tx, rx, rfl, -, -⟩ := h
  exact hg s tx rx

/-- Both states take the same branch. -/
theorem SameButTails.ite {c d : Prop} [Decidable c] [Decidable d] {s t u v : State} (hcd : d ↔ c)
    (hthen : c → SameButTails s u) (helse : ¬c → SameButTails t v) :
    SameButTails (if c then s else t) (if d then u else v) := by
  by_cases h : c
  · rw [if_pos h, if_pos (hcd.mpr h)]; exact hthen h
  · rw [if_neg h, if_neg (mt hcd.mp h)]; exact helse h

theorem enterReset_blind (m : Mode) : BufferBlind (enterReset m) :=
  .ite (fun _ _ _ => Iff.rfl) (fun _ _ _ => rfl) (fun _ _ _ => rfl)

theorem enter_blind (m : Mode) : BufferBlind (enter m) := by
  intro s tx rx
  simp only [enter, enterReset_blind m s tx rx]
  rfl

theorem syncTest_blind : BufferBlind syncTest :=
  .ite (fun _ _ _ => Iff.rfl) (fun _ _ _ => rfl) (fun _ _ _ => rfl)

theorem busyEvent_blind (level : Bool) : BufferBlind (busyEvent level) :=
  .ite (fun _ _ _ => Iff.rfl) (fun _ _ _ => rfl) (fun _ _ _ => rfl)

theorem cadExit_blind : BufferBlind cadExit :=
  .ite (fun _ _ _ => Iff.rfl) (.ite (fun _ _ _ => Iff.rfl) (fun _ _ _ => rfl) (fun _ _ _ => rfl)) (fun _ _ _ => rfl)

theorem rampSum_withBuffers (s : State) (tx rx : Memory) (level : Bool) :
    rampSum (withBuffers s tx rx) level = rampSum s level := rfl

theorem bitOut_blind (level : Bool) : BufferBlind (bitOut · level) := by
  intro s tx rx
  simp only [bitOut, rampSum_withBuffers]
  rfl

theorem startCad_withBuffers (s : State) (tx rx : Memory) :
    startCad (withBuffers s tx rx) = (startCad s).map id (withBuffers · tx rx) := by
  simp only [startCad, apply_ite (Prod.map id (withBuffers · tx rx)), enter_blind .cad s tx rx]
  rfl

theorem setMode_withBuffers (m : Mode) (s : State) (tx rx : Memory) :
    setMode m (withBuffers s tx rx) = (setMode m s).map id (withBuffers · tx rx) := by
  simp only [setMode, apply_ite (Prod.map id (withBuffers · tx rx)), enter_blind m s tx rx,
    startCad_withBuffers s tx rx]
  rfl

theorem enter_rxBufLen_le (m : Mode) (s : State) : (enter m s).rxBufLen ≤ s.rxBufLen := by
  rw [enter_rxBufLen, enterReset]
  split
  · rw [pllReset_rxBufLen]
    split <;> omega
  · exact le_rfl

theorem store_of_lt {s : State} (h : s.rxBufLen < rxBufCap) (v : Byte) :
    store s v = { s with rxb := s.rxb.write s.rxBufLen v, rxBufLen := s.rxBufLen + 1 } := by
  simp only [store, writeRxb, if_pos h]

/-- Both states store the byte at the end of what is held, so the agreement grows by that entry. -/
theorem SameButTails.store {s u : State} (h : SameButTails s u) (hlt : s.rxBufLen < rxBufCap) (v : Byte) :
    SameButTails (store s v) (store u v) := by
  obtain ⟨tx, rx, rfl, htx, hrx⟩ := h
  refine ⟨tx, rx.write s.rxBufLen v, ?_, by simpa using htx, ?_⟩
  · rw [store_of_lt hlt, store_of_lt (s := withBuffers s tx rx) hlt]
    rfl
  · rw [store_rxb_of_lt hlt]
    exact hrx.write_end v

theorem SameButTails.abort {s u : State} (h : SameButTails s u) (r : AbortReason) :
    SameButTails (abort s r) (abort u r) :=
  h.map (f := (Machine.abort · r)) (fun _ _ _ => rfl) le_rfl (Nat.zero_le _)

/-- The frame read for the CRC lies below rx_buf_len. -/
theorem SameButTails.readRxb {s u : State} (h : SameButTails s u) {count : Nat} (hle : count ≤ s.rxBufLen) :
    readRxb u count = readRxb s count := by
  obtain ⟨tx, rx, rfl, -, hrx⟩ := h
  exact readRxb_congr (hrx.mono hle)

theorem SameButTails.verify {s u : State} (h : SameButTails s u) (hle : s.rxCount ≤ s.rxBufLen) :
    SameButTails (verify s) (verify u) := by
  have hcount : u.rxCount = s.rxCount := h.sees State.rxCount fun _ _ _ => rfl
  unfold Machine.verify
  refine .ite (by rw [hcount, h.readRxb hle]) (fun _ => ?_) fun _ => h.abort _
  exact h.map (f := fun s => recordGhost { s with rxGood := true, rxActive := false } .good)
    (fun _ _ _ => rfl) le_rfl le_rfl

theorem SameButTails.append {s u : State} (h : SameButTails s u) (hlt : s.rxBufLen < rxBufCap) (v : Byte) :
    SameButTails (append s v) (append u v) := by
  have hlen : u.rxBufLen = s.rxBufLen := h.sees State.rxBufLen fun _ _ _ => rfl
  have hcount : u.rxCount = s.rxCount := h.sees State.rxCount fun _ _ _ => rfl
  have hstore := h.store hlt v
  unfold Machine.append
  refine .ite (by rw [hlen, hcount]) (fun hlast => hstore.verify ?_) fun _ => hstore
  rw [store_rxCount, store_rxBufLen, hlast]

theorem SameButTails.takeByte {s u : State} (h : SameButTails s u) (hlt : s.rxBufLen < rxBufCap) (v : Byte) :
    SameButTails (takeByte s v) (takeByte u v) := by
  have hlen : u.rxBufLen = s.rxBufLen := h.sees State.rxBufLen fun _ _ _ => rfl
  have hdeclared : SameButTails { s with rxCount := v.toNat } { u with rxCount := v.toNat } :=
    h.map (f := fun s => { s with rxCount := v.toNat }) (fun _ _ _ => rfl) le_rfl le_rfl
  unfold Machine.takeByte
  exact .ite (by rw [hlen]) (fun _ => .ite Iff.rfl (fun _ => hdeclared.append hlt v) fun _ => h.abort _)
    fun _ => h.append hlt v

theorem SameButTails.byteStep {s u : State} (h : SameButTails s u) (hlt : s.rxBufLen < rxBufCap) :
    SameButTails (byteStep s) (byteStep u) := by
  have hbits : u.rxBitCount = s.rxBitCount := h.sees State.rxBitCount fun _ _ _ => rfl
  have hdecode : decodePair u.rxWindow = decodePair s.rxWindow := h.sees (decodePair ·.rxWindow) fun _ _ _ => rfl
  have hzero : SameButTails { s with rxBitCount := 0 } { u with rxBitCount := 0 } :=
    h.map (f := fun s => { s with rxBitCount := 0 }) (fun _ _ _ => rfl) le_rfl le_rfl
  unfold Machine.byteStep
  refine .ite (by rw [hbits]) (fun _ => ?_) fun _ => ?_
  · rw [hdecode]
    cases decodePair s.rxWindow with
    | none => exact hzero.abort _
    | some v => exact hzero.takeByte hlt v
  · exact h.map (f := fun s => { s with rxBitCount := s.rxBitCount + 1 }) (fun _ _ _ => rfl) le_rfl le_rfl

theorem syncTest_rxBufLen_le (s : State) : (syncTest s).rxBufLen ≤ s.rxBufLen := by
  unfold syncTest
  split
  · exact Nat.zero_le _
  · exact le_rfl

theorem SameButTails.frameStep {s u : State} (h : SameButTails s u) (hinv : FrameInv s) :
    SameButTails (frameStep s) (frameStep u) := by
  have hactive : u.rxActive = s.rxActive := h.sees State.rxActive fun _ _ _ => rfl
  have hgood : u.rxGood = s.rxGood := h.sees State.rxGood fun _ _ _ => rfl
  unfold Machine.frameStep
  refine .ite (by rw [hactive]) (fun ha => ?_) fun _ => .ite (by rw [hgood]) (fun _ => h) fun _ => ?_
  · obtain ⟨-, hlt, -⟩ := hinv.receiving ha
    exact h.byteStep hlt
  · exact h.map syncTest_blind (by simp) (syncTest_rxBufLen_le s)

theorem SameButTails.pllStep {s u : State} (h : SameButTails s u) (hinv : FrameInv s) (level : Bool) :
    SameButTails (pllStep level s) (pllStep level u) := by
  have hsum : rampSum u level = rampSum s level := h.sees (rampSum · level) fun _ _ _ => rfl
  unfold Machine.pllStep
  refine .ite (by rw [hsum]) (fun _ => ?_) fun _ => ?_
  · exact (h.map (bitOut_blind level) (by simp) (by simp)).frameStep (bitOut_frameInv hinv level)
  · exact h.map (f := (withinBit · level)) (fun _ _ _ => rfl) le_rfl le_rfl

theorem SameButTails.rxTick {s u : State} (h : SameButTails s u) (hinv : FrameInv s) (level : Bool) :
    SameButTails (rxTick level s) (rxTick level u) :=
  (h.pllStep hinv level).map (cadExit_blind.comp (busyEvent_blind level)) (by simp) (by simp)

/-- The pump reads the entry of the bit it emits, which lies below tx_len. -/
theorem SameButTails.emitBit {s u : State} (h : SameButTails s u) (hlt : s.txBitIndex < 6 * s.txLen) :
    SameButTails (emitBit s) (emitBit u) := by
  obtain ⟨tx, rx, rfl, htx, hrx⟩ := h
  have hread : readTxb (withBuffers s tx rx) (s.txBitIndex / 6) = readTxb s (s.txBitIndex / 6) :=
    readTxb_congr (htx _ (by omega))
  refine ⟨tx, rx, ?_, htx, hrx⟩
  unfold Machine.emitBit
  rw [show (withBuffers s tx rx).txBitIndex = s.txBitIndex from rfl, hread]
  rfl

theorem drain_blind : BufferBlind drain :=
  (enter_blind .rx).comp (g := fun s => { s with txLevel := false, txLen := 0, txBitIndex := 0 }) fun _ _ _ => rfl

theorem SameButTails.txStep {s u : State} (h : SameButTails s u) (hinv : TxInv s) :
    SameButTails (txStep s) (txStep u) := by
  have hsample : u.txSample = s.txSample := h.sees State.txSample fun _ _ _ => rfl
  have hindex : u.txBitIndex = s.txBitIndex := h.sees State.txBitIndex fun _ _ _ => rfl
  have hlen : u.txLen = s.txLen := h.sees State.txLen fun _ _ _ => rfl
  have hle := hinv.index
  have hnext {s u : State} (h : SameButTails s u) : SameButTails (nextTxSample s) (nextTxSample u) :=
    h.map (fun _ _ _ => rfl) le_rfl le_rfl
  unfold Machine.txStep
  refine .ite (by rw [hsample]) (fun _ => .ite (by rw [hindex, hlen]) (fun _ => ?_) fun hmore => ?_) fun _ => hnext h
  · exact h.map drain_blind (by simp [drain]) (enter_rxBufLen_le .rx _)
  · exact hnext (h.emitBit (by omega))

theorem SameButTails.tick {s u : State} (h : SameButTails s u) (hinv : StateInv s) :
    SameButTails (tick s) (tick u) := by
  have hmode : u.mode = s.mode := h.sees State.mode fun _ _ _ => rfl
  have hlevel : rxIn u = rxIn s := h.sees rxIn fun _ _ _ => rfl
  have hcount : SameButTails (countTick s) (countTick u) := h.map (fun _ _ _ => rfl) le_rfl le_rfl
  have hbase : BaseInv (countTick s) := countTick_base hinv.base
  rcases mode_cases s.mode with ⟨htx, hl⟩ | hm | ⟨-, hl⟩
  · rw [tick_of_resting htx hl, tick_of_resting (hmode ▸ htx) (hmode ▸ hl)]
    exact hcount
  · rw [tick_of_tx hm, tick_of_tx (hmode ▸ hm)]
    exact hcount.txStep hbase.tx
  · rw [tick_of_listening hl, tick_of_listening (hmode ▸ hl), hlevel]
    exact (hcount.map (f := consumeRx) (fun _ _ _ => rfl) le_rfl le_rfl).rxTick (consumeRx_base hbase).frame _

/-- The same frame is assembled over both buffers, as long as the new tx_len. -/
theorem SameButTails.startSend {s u : State} (h : SameButTails s u) (payload : List Byte) :
    SameButTails (startSend payload s) (startSend payload u) := by
  obtain ⟨tx, rx, rfl, -, hrx⟩ := h
  refine ⟨tx.writeList 0 (txEntries s payload), rx, rfl, fun a ha => ?_, hrx⟩
  rw [startSend_txLen] at ha
  have hlt : 0 ≤ a ∧ a < 0 + (txEntries s payload).length := by
    rw [txEntries_length]
    unfold minFrameLen at ha
    omega
  rw [startSend_txb, Memory.read_writeList, Memory.read_writeList, if_pos hlt, if_pos hlt]

/-- Both outcomes are a next state, and the same but for the tails. -/
def SameOutcome (o p : Host.Outcome State Fault Refusal) : Prop :=
  ∃ t u, o = .next t ∧ p = .next u ∧ SameButTails t u

theorem SameButTails.respond {s u : State} (h : SameButTails s u) (status : Status) (data : List Byte)
    (out : Option Bool) :
    SameOutcome (.next (respond s status data out)) (.next (respond u status data out)) :=
  ⟨_, _, rfl, rfl, h.map (f := (Machine.respond · status data out)) (fun _ _ _ => rfl) le_rfl le_rfl⟩

theorem setMode_blind (m : Mode) : BufferBlind fun s => (setMode m s).2 := by
  intro s tx rx
  simp only [setMode_withBuffers]
  rfl

/-- SET_MODE answers the same status and lengthens neither buffer. -/
theorem SameButTails.setMode {s u : State} (h : SameButTails s u) (m : Mode) :
    (setMode m u).1 = (setMode m s).1 ∧ SameButTails (setMode m s).2 (setMode m u).2 := by
  refine ⟨h.sees (fun s => (Machine.setMode m s).1) fun s tx rx => by rw [setMode_withBuffers]; rfl, ?_⟩
  rcases setMode_enters m s with hs | ⟨-, -, hs⟩
  · exact h.map (setMode_blind m) (by rw [hs]) (by rw [hs])
  · exact h.map (setMode_blind m) (by rw [hs, enter_txLen]) (by rw [hs]; exact enter_rxBufLen_le m s)

theorem startCad_blind : BufferBlind fun s => (startCad s).2 := by
  intro s tx rx
  simp only [startCad_withBuffers]
  rfl

theorem SameButTails.startCad {s u : State} (h : SameButTails s u) :
    (startCad u).1 = (startCad s).1 ∧ SameButTails (startCad s).2 (startCad u).2 := by
  refine ⟨h.sees (fun s => (Machine.startCad s).1) fun s tx rx => by rw [startCad_withBuffers]; rfl, ?_⟩
  rcases startCad_enters s with hs | ⟨-, hs⟩
  · exact h.map startCad_blind (by rw [hs]) (by rw [hs])
  · exact h.map startCad_blind (by rw [hs, enter_txLen]) (by rw [hs]; exact enter_rxBufLen_le _ s)

theorem SameButTails.execSend {s u : State} (h : SameButTails s u) (payload : List Byte) :
    SameOutcome (execSend payload s) (execSend payload u) := by
  have hmode : u.mode = s.mode := h.sees State.mode fun _ _ _ => rfl
  unfold Machine.execSend
  rw [hmode]
  split
  · exact h.respond _ _ _
  · split
    · exact h.respond _ _ _
    · exact (h.startSend payload).respond _ _ _

/-- A delivered frame lies below rx_buf_len, so RECEIVE answers the same bytes. -/
theorem SameButTails.execReceive {s u : State} (h : SameButTails s u) (hinv : FrameInv s) :
    SameOutcome (execReceive s) (execReceive u) := by
  have hgood : u.rxGood = s.rxGood := h.sees State.rxGood fun _ _ _ => rfl
  have hcount : u.rxCount = s.rxCount := h.sees State.rxCount fun _ _ _ => rfl
  unfold Machine.execReceive
  rw [hgood, hcount]
  split
  · obtain ⟨-, hlen, -⟩ := hinv.delivered ‹_›
    rw [h.readRxb hlen.ge]
    exact (h.map (f := clearDelivered) (fun _ _ _ => rfl) le_rfl (by simp)).respond _ _ _
  · exact h.respond _ _ _

/-- Every operation has the same outcome in both states. -/
theorem SameButTails.exec {s u : State} (h : SameButTails s u) (hinv : StateInv s) (i : Instr) :
    SameOutcome (exec i s) (exec i u) := by
  have hmode : u.mode = s.mode := h.sees State.mode fun _ _ _ => rfl
  cases i with
  | tick =>
    have htick := h.tick hinv
    have hlevel : (Machine.tick u).txLevel = (Machine.tick s).txLevel :=
      htick.sees State.txLevel fun _ _ _ => rfl
    simp only [Machine.exec, execTick, answerTick, hlevel]
    exact htick.respond _ _ _
  | send payload => exact h.execSend payload
  | setHeader dest src ident flags =>
    exact (h.map (f := fun s => { s with hdrTo := dest, hdrFrom := src, hdrId := ident, hdrFlags := flags })
      (fun _ _ _ => rfl) le_rfl le_rfl).respond _ _ _
  | available =>
    have hgood : u.rxGood = s.rxGood := h.sees State.rxGood fun _ _ _ => rfl
    simp only [Machine.exec, execAvailable, hgood]
    exact h.respond _ _ _
  | receive => exact h.execReceive hinv.frame
  | setMode m =>
    obtain ⟨hstatus, hnext⟩ := h.setMode m
    simp only [Machine.exec, execSetMode, answer, hstatus]
    exact hnext.respond _ _ _
  | startCad =>
    obtain ⟨hstatus, hnext⟩ := h.startCad
    simp only [Machine.exec, execStartCad, answer, hstatus]
    exact hnext.respond _ _ _
  | isChannelBusy =>
    have hbusy : channelBusy u = channelBusy s := h.sees channelBusy fun _ _ _ => rfl
    simp only [Machine.exec, execIsChannelBusy, hbusy]
    exact h.respond _ _ _
  | txDone =>
    simp only [Machine.exec, execTxDone, hmode]
    exact h.respond _ _ _
  | getMode =>
    simp only [Machine.exec, execGetMode, hmode]
    exact h.respond _ _ _

/-- Settles O56: agreement below tx_len and rx_buf_len is kept by every operation, with the same outcome. -/
theorem bufferTailsAreNeverRead : Obligations.BufferTailsAreNeverRead := by
  intro i s t tx rx hinv htx hrx hexec
  have hsame : SameButTails s (withBuffers s tx rx) := ⟨tx, rx, rfl, htx, hrx⟩
  obtain ⟨t', u, hs, hu, tx', rx', rfl, htx', hrx'⟩ := hsame.exec hinv i
  cases hexec.symm.trans hs
  exact ⟨tx', rx', hu, htx', hrx'⟩

end Sys2Proof.Machine
end

section
/-! PROOFS of the family 20_memory: what crosses the block's boundary. The decoder undoes the encoder, a byte sent
on the line is the byte received, a frame sent is the frame delivered, and what a `TICK` and the other operations
leave alone. -/

namespace Sys2Proof

/-! ### The decoder undoes the encoder (rules R80 to R85) -/

/-- A command word with a plain opcode and `ARG` 0 is taken by its operand format. -/
theorem decode_plainWord {op : Nibble} (hplain : plainOpcode op = true) (hop : op ≠ 0x6) (bytes : List Byte) :
    decode (commandWord op 0 :: bytes) = decodePlain op bytes := by
  simp only [decode, opField_commandWord, argField_commandWord, if_neg hop, if_pos hplain, if_true]

theorem decode_modeWord (m : Mode) (bytes : List Byte) :
    decode (commandWord 0x6 (modeCode m) :: bytes) = .instr (.setMode m) bytes := by
  simp only [decode, opField_commandWord, argField_commandWord, modeOfArg_modeCode, if_true]

/-- `LEN` and its payload are taken whole, and nothing after them. -/
theorem decodePayload_of_length {payload : List Byte} (h : payload.length ≤ 255) (rest : List Byte) :
    decodePayload (BitVec.ofNat 8 payload.length :: (payload ++ rest)) = .instr (.send payload) rest := by
  simp [decodePayload, payloadLength_toNat h]

/-- The bytes of a well-formed transaction decode to it, whatever follows them. -/
theorem decode_encode_append {i : Instr} (h : i.wellFormed = true) (rest : List Byte) :
    decode (encode i ++ rest) = .instr i rest := by
  cases i with
  | send payload => exact (decode_plainWord rfl (by decide) _).trans (decodePayload_of_length (of_decide_eq_true h) rest)
  | setMode m => exact decode_modeWord m rest
  | tick => exact decode_plainWord rfl (by decide) rest
  | setHeader dest src ident flags => exact decode_plainWord rfl (by decide) (dest :: src :: ident :: flags :: rest)
  | available => exact decode_plainWord rfl (by decide) rest
  | receive => exact decode_plainWord rfl (by decide) rest
  | startCad => exact decode_plainWord rfl (by decide) rest
  | isChannelBusy => exact decode_plainWord rfl (by decide) rest
  | txDone => exact decode_plainWord rfl (by decide) rest
  | getMode => exact decode_plainWord rfl (by decide) rest

end Sys2Proof

namespace Sys2Proof.Machine

/-- Settles O5: the decoder gives the instruction back with the bytes after it. -/
theorem stepRunsTheDecodedInstruction : Obligations.StepRunsTheDecodedInstruction := by
  intro s i rest hpending hwf
  rw [step, hpending, decode_encode_append hwf]
  rfl

/-! ### A byte on the line (rules R68, R69) -/

/-- The two halves of a byte are the byte. -/
theorem highNibble_append_lowNibble (b : Byte) : highNibble b ++ lowNibble b = b := by
  revert b; decide

/-- No two nibbles share a symbol (rules R95, R113). -/
theorem decodeSymbol_encodeNibble (n : Nibble) : decodeSymbol (encodeNibble n) = some n := by
  revert n; decide

/-- The pair of a byte decodes to the byte (rules R111, R114). -/
theorem decodePair_encodeByte (b : Byte) : decodePair ((encodeByte b).1 ++ (encodeByte b).2) = some b := by
  have hhigh : decodeSymbol (((encodeByte b).1 ++ (encodeByte b).2).extractLsb' 6 6) = some (highNibble b) := by
    rw [BitVec.extractLsb'_append_eq_left]
    exact decodeSymbol_encodeNibble _
  have hlow : decodeSymbol (((encodeByte b).1 ++ (encodeByte b).2).extractLsb' 0 6) = some (lowNibble b) := by
    rw [BitVec.extractLsb'_append_eq_right]
    exact decodeSymbol_encodeNibble _
  simp only [decodePair, hhigh, hlow, highNibble_append_lowNibble]

/-- The window shift is the library's shift of a bit into bit 0 (rule R188). -/
theorem shiftWindow_eq_shiftConcat (w : Window) (bit : Bool) : shiftWindow w bit = w.shiftConcat bit := by
  ext k hk
  cases k <;> cases bit <;> simp [shiftWindow, BitVec.getElem_shiftConcat]

/-- The six bits of a symbol, shifted in, move the window's low half up and stand below it. -/
theorem foldl_shiftWindow_entryBits (w : Window) (x : Symbol) :
    (entryBits (x.setWidth 8)).foldl shiftWindow w = w.extractLsb' 0 6 ++ x := by
  apply BitVec.eq_of_getLsbD_eq
  intro k hk
  simp only [entryBits, List.foldl_cons, List.foldl_nil, shiftWindow_eq_shiftConcat, BitVec.getLsbD_append]
  interval_cases k <;> simp [BitVec.getElem_shiftConcat, entryBit]

/-- The twelve bits of two symbols fill the window, whatever stood in it. -/
theorem foldl_shiftWindow_pair (w : Window) (x y : Symbol) :
    (entryBits (x.setWidth 8) ++ entryBits (y.setWidth 8)).foldl shiftWindow w = x ++ y := by
  rw [List.foldl_append, foldl_shiftWindow_entryBits, foldl_shiftWindow_entryBits]
  exact congrArg (· ++ y) BitVec.extractLsb'_append_eq_right

/-- The bits of the two buffer entries of a byte fill the window with the byte's pair. -/
theorem foldl_shiftWindow_byteEntries (w : Window) (b : Byte) :
    ((byteEntries b).flatMap entryBits).foldl shiftWindow w = (encodeByte b).1 ++ (encodeByte b).2 := by
  simpa [byteEntries] using foldl_shiftWindow_pair w (encodeByte b).1 (encodeByte b).2

/-- Settles O11: the twelve bits fill the window with the byte's pair. -/
theorem byteSentIsTheByteReceived : Obligations.ByteSentIsTheByteReceived := by
  intro b w
  have hbits : ([(encodeByte b).1, (encodeByte b).2].flatMap fun x => entryBits (x.setWidth 8)) =
      entryBits ((encodeByte b).1.setWidth 8) ++ entryBits ((encodeByte b).2.setWidth 8) := by simp
  rw [hbits, foldl_shiftWindow_pair, decodePair_encodeByte]

/-! ### What cannot disturb a transmission, and who samples the RX line (rules R65, R71) -/

/-- Settles O19: in Tx the other operations only answer, write the header or drain a frame. -/
theorem transmissionCannotBeDisturbed : Obligations.TransmissionCannotBeDisturbed := by
  intro i s t hm hi hexec
  obtain ⟨u, status, data, out, rfl, heffect⟩ := exec_effect hexec
  cases heffect with
  | unchanged => simp [hm]
  | tick => exact absurd rfl hi
  | send hne => exact absurd hm hne
  | setHeader => simp [hm]
  | receive => simp [hm]
  | setMode hne => exact absurd hm hne
  | startCad hrx => rw [hm] at hrx; cases hrx

theorem listening_iff {m : Mode} : listening m = true ↔ m = .rx ∨ m = .cad := by cases m <;> decide

/-- The demodulator keeps the level it was given as the last sample, at a bit tick and within a bit (rule R186). -/
theorem pllStep_rxLastSample (level : Bool) (s : State) : (pllStep level s).rxLastSample = level := by
  unfold pllStep
  split
  · rw [frameStep_onlyFrameFields (bitOut s level)]
    exact bitOut_rxLastSample s level
  · exact withinBit_rxLastSample s level

@[simp] theorem rxTick_rxLastSample (level : Bool) (s : State) : (rxTick level s).rxLastSample = level := by
  simp [rxTick, pllStep_rxLastSample]

@[simp] theorem rxTick_env (level : Bool) (s : State) : (rxTick level s).env = (pllStep level s).env := by
  simp [rxTick]

/-- No tick in Rx or Cad moves TX_OUT. -/
@[simp] theorem rxTick_txLevel (level : Bool) (s : State) : (rxTick level s).txLevel = s.txLevel := by
  simp [rxTick, (pllStep_sameOutside level s).txLevel]

/-- Settles O25: the line is sampled before the demodulator runs, which records nothing but ghost events. -/
theorem listeningTickDrawsOnce : Obligations.ListeningTickDrawsOnce := by
  intro s t hm hexec
  cases hexec
  have hsame := pllStep_sameOutside (rxIn s) (consumeRx (countTick s))
  simp only [tick_of_listening (listening_iff.mpr hm), answerTick_env, answerTick_rxLastSample, rxTick_env,
    rxTick_txLevel, rxTick_rxLastSample]
  rw [hsame.env]
  simp

/-- The pump does not see the boundary. -/
theorem txStep_withEnv (s : State) (e : Env) : txStep { s with env := e } = { txStep s with env := e } := by
  have hdrain : drain { s with env := e } = { drain s with env := e } := by
    unfold drain enter enterReset
    split <;> rfl
  unfold txStep
  split
  · split
    · exact hdrain
    · rfl
  · rfl

@[simp] theorem txStep_env (s : State) : (txStep s).env = s.env := by
  unfold txStep
  split
  · split <;> simp [drain]
  · simp

/-- Outside Rx and Cad a tick does not see the boundary. -/
theorem tick_withEnv {s : State} (hl : listening s.mode = false) (e : Env) :
    (tick s).env = s.env ∧ tick { s with env := e } = { tick s with env := e } := by
  rcases mode_cases s.mode with ⟨htx, -⟩ | hm | ⟨-, hl'⟩
  · rw [tick_of_resting htx hl, tick_of_resting (s := { s with env := e }) htx hl]
    exact ⟨rfl, rfl⟩
  · rw [tick_of_tx hm, tick_of_tx (s := { s with env := e }) hm]
    exact ⟨txStep_env _, txStep_withEnv (countTick s) e⟩
  · rw [hl] at hl'; cases hl'

/-- Settles O47: the tick does not see the boundary, and its answer leaves the list of levels. -/
theorem rxLineIsIgnoredOutsideRxAndCad : Obligations.RxLineIsIgnoredOutsideRxAndCad := by
  intro s t draws hrx hcad hexec
  have hl : listening s.mode = false := Bool.eq_false_iff.mpr fun h => (listening_iff.mp h).elim hrx hcad
  obtain ⟨henv, htick⟩ := tick_withEnv hl { s.env with rxDraws := draws }
  cases hexec
  refine ⟨by simp [henv], ?_⟩
  simp only [exec, execTick, htick, answerTick, respond, henv]

/-! ### The CRC of a frame SEND builds (rules R133 to R135) -/

/-- A value whose low byte is 0 is only shifted: its high byte becomes the low one. -/
theorem crcShifts_highByte (h : Byte) : crcShifts 8 (h ++ (0 : Byte)) = h.setWidth 16 := by
  revert h; decide

/-- After the low byte of its complement, a running value depends on its high byte alone. -/
theorem crcUpdate_complementLow (c : Crc) :
    crcUpdate c ((~~~c).extractLsb' 0 8) = (c.extractLsb' 8 8).setWidth 16 ^^^ 0x0F78 := by
  have hsplit : c ^^^ ((~~~c).extractLsb' 0 8).setWidth 16 = (c.extractLsb' 8 8 ++ (0 : Byte)) ^^^ 0x00FF := by
    ext k hk
    simp only [BitVec.getElem_xor, BitVec.getElem_append]
    interval_cases k <;> simp
  have hlow : crcShifts 8 0x00FF = 0x0F78 := by decide
  rw [crcUpdate, hsplit, crcShifts_xor, crcShifts_highByte, hlow]

/-- A running value followed by its complement, low byte first, leaves the residue: the value cancels. -/
theorem crcUpdate_complement (c : Crc) :
    crcUpdate (crcUpdate c ((~~~c).extractLsb' 0 8)) ((~~~c).extractLsb' 8 8) = crcResidue := by
  have hcancel : (c.extractLsb' 8 8).setWidth 16 ^^^ ((~~~c).extractLsb' 8 8).setWidth 16 = (0x00FF : Crc) := by
    ext k hk
    simp only [BitVec.getElem_xor]
    interval_cases k <;> simp
  rw [crcUpdate_complementLow, crcUpdate, BitVec.xor_assoc, BitVec.xor_comm 0x0F78, ← BitVec.xor_assoc, hcancel]
  decide

/-- Any bytes followed by their FCS leave the residue (rule R135). -/
theorem crc16_append_fcs (bytes : List Byte) : crc16 (bytes ++ [fcsLow bytes, fcsHigh bytes]) = crcResidue := by
  rw [crc16_append]
  exact crcUpdate_complement (crc16 bytes)

theorem crcCheck_frameBytes (s : State) (payload : List Byte) : crcCheck (frameBytes s payload) = true :=
  decide_eq_true (crc16_append_fcs (frameData s payload))

/-! ### A frame on the line (rules R69, R99, R214, R217, R218, R225) -/

/-- A bit of a symbol pair that is not its last is counted (rule R214). -/
theorem receiveBit_of_lt {s : State} (ha : s.rxActive = true) (h : s.rxBitCount + 1 < 12) (bit : Bool) :
    receiveBit s bit = { s with rxWindow := shiftWindow s.rxWindow bit, rxBitCount := s.rxBitCount + 1 } := by
  have hne : s.rxBitCount + 1 ≠ 12 := by omega
  simp [receiveBit, frameStep, byteStep, ha, hne]

/-- The last bit of a pair that decodes hands the byte to the frame (rule R214). -/
theorem receiveBit_of_last {s : State} {v : Byte} (ha : s.rxActive = true) (h : s.rxBitCount + 1 = 12) (bit : Bool)
    (hv : decodePair (shiftWindow s.rxWindow bit) = some v) :
    receiveBit s bit = takeByte { s with rxWindow := shiftWindow s.rxWindow bit, rxBitCount := 0 } v := by
  simp [receiveBit, frameStep, byteStep, ha, h, hv]

theorem receiveBits_append (s : State) (before after : List Bool) :
    receiveBits s (before ++ after) = receiveBits (receiveBits s before) after := by
  induction before generalizing s with
  | nil => rfl
  | cons bit before ih => exact ih _

/-- Bits that complete a pair hand the byte it decodes to to the frame. -/
theorem receiveBits_of_pair {s : State} {v : Byte} {bits : List Bool} (ha : s.rxActive = true) (hne : bits ≠ [])
    (hlen : s.rxBitCount + bits.length = 12) (hv : decodePair (bits.foldl shiftWindow s.rxWindow) = some v) :
    receiveBits s bits = takeByte { s with rxWindow := bits.foldl shiftWindow s.rxWindow, rxBitCount := 0 } v := by
  induction bits generalizing s with
  | nil => exact absurd rfl hne
  | cons bit bits ih =>
    rw [List.length_cons] at hlen
    rw [receiveBits]
    by_cases hlast : bits = []
    · subst hlast
      exact receiveBit_of_last ha hlen bit hv
    · have hpos := List.length_pos_iff.mpr hlast
      rw [receiveBit_of_lt ha (by omega)]
      exact ih ha hlast (by simp only; omega) hv

/-- The line bits of bytes, each as the two buffer entries of its symbols (rules R68, R111). -/
def lineBits (bytes : List Byte) : List Bool := (bytes.flatMap byteEntries).flatMap entryBits

theorem lineBits_append (before after : List Byte) : lineBits (before ++ after) = lineBits before ++ lineBits after := by
  simp [lineBits]

/-- A byte's line bits hand that byte to the frame (rule R69). -/
theorem receiveBits_lineBits_singleton {s : State} (ha : s.rxActive = true) (hbits : s.rxBitCount = 0) (v : Byte) :
    ∃ w, receiveBits s (lineBits [v]) = takeByte { s with rxWindow := w, rxBitCount := 0 } v := by
  have hline : lineBits [v] = (byteEntries v).flatMap entryBits := by simp [lineBits]
  rw [hline]
  refine ⟨_, receiveBits_of_pair ha (by simp [byteEntries, entryBits]) (by simp [hbits, byteEntries, entryBits]) ?_⟩
  rw [foldl_shiftWindow_byteEntries]
  exact decodePair_encodeByte v

/-- The frame machine has taken the bytes `held` of a frame and is between two bytes. -/
structure Holds (s : State) (held : List Byte) : Prop where
  active : s.rxActive = true
  good : s.rxGood = false
  bits : s.rxBitCount = 0
  length : s.rxBufLen = held.length
  bytes : readRxb s held.length = held

/-- A stored byte joins the bytes held (rule R218). -/
theorem Holds.store {s : State} {held : List Byte} (h : Holds s held) (hlt : held.length < rxBufCap) (v : Byte) :
    Holds (store s v) (held ++ [v]) where
  active := by simpa using h.active
  good := by simpa using h.good
  bits := by simpa using h.bits
  length := by simpa using h.length
  bytes := by
    rw [List.length_append, List.length_singleton, ← h.length, store_readRxb (h.length ▸ hlt), h.length, h.bytes]

/-- The window is no part of what is held. -/
theorem Holds.betweenBytes {s : State} {held : List Byte} (h : Holds s held) (w : Window) :
    Holds { s with rxWindow := w, rxBitCount := 0 } held := { h with bits := rfl }

/-- A length byte that passes the gate is stored as the first of the bytes it declares (rules R217, R218). -/
theorem takeByte_of_lengthPasses {s : State} {v : Byte} (h : s.rxBufLen = 0) (hlo : minFrameLen ≤ v.toNat)
    (hhi : v.toNat ≤ rxBufCap) : takeByte s v = store { s with rxCount := v.toNat } v := by
  have hpass : lengthPasses v = true := by simp [lengthPasses, hlo, hhi]
  have hmore : s.rxBufLen + 1 ≠ v.toNat := by unfold minFrameLen at hlo; omega
  rw [takeByte, if_pos h, if_pos hpass, append, if_neg hmore]

/-- The length byte of a frame declares its length and is held (rule R217). -/
theorem Holds.receive_lengthByte {s : State} (h : Holds s []) {v : Byte} (hlo : minFrameLen ≤ v.toNat)
    (hhi : v.toNat ≤ rxBufCap) :
    Holds (receiveBits s (lineBits [v])) [v] ∧ (receiveBits s (lineBits [v])).rxCount = v.toNat := by
  obtain ⟨w, hw⟩ := receiveBits_lineBits_singleton h.active h.bits v
  have hdeclared : Holds { s with rxWindow := w, rxBitCount := 0, rxCount := v.toNat } [] := { h.betweenBytes w with }
  rw [hw, takeByte_of_lengthPasses (h.betweenBytes w).length hlo hhi]
  exact ⟨hdeclared.store (by decide) v, store_rxCount _ v⟩

/-- A later byte is appended to those held (rule R218). -/
theorem Holds.receive_laterByte {s : State} {held : List Byte} (h : Holds s held) (hne : held ≠ []) (v : Byte) :
    ∃ w, receiveBits s (lineBits [v]) = append { s with rxWindow := w, rxBitCount := 0 } v := by
  obtain ⟨w, hw⟩ := receiveBits_lineBits_singleton h.active h.bits v
  have hpos : s.rxBufLen ≠ 0 := by rw [h.length]; simpa using hne
  exact ⟨w, by rw [hw, takeByte, if_neg hpos]⟩

/-- Bytes that do not complete the frame are held after those before. -/
theorem Holds.receive_body {s : State} {held : List Byte} (h : Holds s held) (hne : held ≠ [])
    (hcap : s.rxCount ≤ rxBufCap) {body : List Byte} (hlt : held.length + body.length < s.rxCount) :
    Holds (receiveBits s (lineBits body)) (held ++ body) ∧ (receiveBits s (lineBits body)).rxCount = s.rxCount := by
  induction body generalizing s held with
  | nil => simpa [lineBits, receiveBits] using h
  | cons v body ih =>
    rw [List.length_cons] at hlt
    obtain ⟨w, hw⟩ := h.receive_laterByte hne v
    have hstore := (h.betweenBytes w).store (by omega) v
    have hlen := h.length
    rw [← List.singleton_append, lineBits_append, receiveBits_append, hw, append, if_neg (by simp only; omega),
      ← List.append_assoc]
    simpa using ih hstore (by simp) (by simpa using hcap) (by simp; omega)

/-- `t` holds the delivered frame `frame` (rules R225, R226). -/
structure Delivers (t : State) (frame : List Byte) : Prop where
  good : t.rxGood = true
  rest : t.rxActive = false
  count : t.rxCount = frame.length
  length : t.rxBufLen = frame.length
  bytes : readRxb t t.rxCount = frame

/-- A complete frame whose CRC holds is delivered (rule R225). -/
theorem Holds.verify {s : State} {frame : List Byte} (h : Holds s frame) (hcount : s.rxCount = frame.length)
    (hcrc : crcCheck frame = true) : Delivers (verify s) frame := by
  have hread : readRxb s s.rxCount = frame := by rw [hcount, h.bytes]
  rw [Machine.verify, hread, if_pos hcrc]
  exact ⟨rfl, rfl, hcount, h.length, hread⟩

/-- The byte that completes a frame whose CRC holds delivers it (rules R218, R225). -/
theorem Holds.receive_lastByte {s : State} {held : List Byte} (h : Holds s held) (hne : held ≠ [])
    (hcap : s.rxCount ≤ rxBufCap) {v : Byte} (hlast : held.length + 1 = s.rxCount)
    (hcrc : crcCheck (held ++ [v]) = true) : Delivers (receiveBits s (lineBits [v])) (held ++ [v]) := by
  obtain ⟨w, hw⟩ := h.receive_laterByte hne v
  have hlen := h.length
  rw [hw, append, if_pos (by simp only; omega)]
  exact ((h.betweenBytes w).store (by omega) v).verify (by simpa using hlast.symm) hcrc

/-- The line bits of a frame whose first byte is its length, 7 to 67, and whose CRC holds deliver that frame. -/
theorem Holds.receive_frame {s : State} (h : Holds s []) {first last : Byte} {body : List Byte}
    (hlength : first.toNat = body.length + 2) (hlo : minFrameLen ≤ first.toNat) (hhi : first.toNat ≤ rxBufCap)
    (hcrc : crcCheck ([first] ++ body ++ [last]) = true) :
    Delivers (receiveBits s (lineBits ([first] ++ body ++ [last]))) ([first] ++ body ++ [last]) := by
  obtain ⟨hfirst, hdeclared⟩ := h.receive_lengthByte hlo hhi
  obtain ⟨hbody, hcount⟩ := hfirst.receive_body (body := body) (by simp) (by omega) (by simp; omega)
  rw [lineBits_append, lineBits_append, receiveBits_append, receiveBits_append]
  exact hbody.receive_lastByte (by simp) (by omega) (by simp; omega) hcrc

/-- The entries SEND writes after the preamble and the start symbol are those of the frame (rule R99). -/
theorem txEntries_drop (s : State) (payload : List Byte) :
    (txEntries s payload).drop 10 = (frameBytes s payload).flatMap byteEntries := rfl

/-- Settles O34: a frame SEND builds begins with its length and passes the CRC check. -/
theorem frameSentIsTheFrameDelivered : Obligations.FrameSentIsTheFrameDelivered := by
  intro sender receiver payload hlen hactive hgood hbits hempty
  have hstart : Holds receiver [] := ⟨hactive, hgood, hbits, hempty, rfl⟩
  have hframe : frameBytes sender payload =
      [BitVec.ofNat 8 (minFrameLen + payload.length)] ++
        (headerBytes sender ++ payload ++ [fcsLow (frameData sender payload)]) ++
        [fcsHigh (frameData sender payload)] := by
    simp [frameBytes, frameData]
  have hfirst : (BitVec.ofNat 8 (minFrameLen + payload.length)).toNat = minFrameLen + payload.length := by
    rw [BitVec.toNat_ofNat]; unfold minFrameLen; omega
  have hdelivers : Delivers (receiveBits receiver (lineBits (frameBytes sender payload)))
      (frameBytes sender payload) := by
    have hcrc := crcCheck_frameBytes sender payload
    rw [hframe] at hcrc ⊢
    refine hstart.receive_frame ?_ ?_ ?_ hcrc
    · rw [hfirst]; simp [headerBytes, minFrameLen]; omega
    · omega
    · rw [hfirst]; unfold minFrameLen rxBufCap; omega
  obtain ⟨hgood', hrest, hcount, hheld, hbytes⟩ := hdelivers
  rw [frameBytes_length] at hcount hheld
  exact ⟨_, rfl, hgood', hrest, hcount, hheld, hbytes⟩

end Sys2Proof.Machine
end

section
/-! PROOFS of the family 30_encoding: the decoder is the encoder's inverse in both directions, which command words
are Illegal and what a step does with one, a flipped bit in a symbol pair, and the views of a frame. -/

namespace Sys2Proof

/-! ### Decoding and encoding (rules R82 to R91) -/

/-- Settles O1: each operand format takes exactly the bytes the encoder wrote. -/
theorem decodeOfEncode : Obligations.DecodeOfEncode := fun _ rest hwf => decode_encode_append hwf rest

/-- The nine opcodes rule R84 gives an operation without `ARG`. -/
theorem plainOpcode_cases {op : Nibble} (h : plainOpcode op = true) :
    op = 0x1 ∨ op = 0x2 ∨ op = 0x3 ∨ op = 0x4 ∨ op = 0x5 ∨ op = 0x7 ∨ op = 0x8 ∨ op = 0x9 ∨ op = 0xA := by
  simpa [plainOpcode, or_assoc] using h

/-- What a plain opcode answers is well-formed, and its command word and the bytes taken are its encoding. -/
theorem decodePlain_instr {op : Nibble} (hplain : plainOpcode op = true) {bytes rest : List Byte} {i : Instr}
    (h : decodePlain op bytes = .instr i rest) :
    i.wellFormed = true ∧ commandWord op 0 :: bytes = encode i ++ rest := by
  rcases plainOpcode_cases hplain with rfl | rfl | rfl | rfl | rfl | rfl | rfl | rfl | rfl
  case inr.inl =>
    obtain ⟨payload, rfl, hlen, rfl⟩ := decodePayload_instr h
    exact ⟨decide_eq_true hlen, rfl⟩
  case inr.inr.inl =>
    obtain ⟨dest, src, ident, flags, rfl, rfl⟩ := decodeHeader_instr h
    exact ⟨rfl, rfl⟩
  all_goals
    cases h
    exact ⟨rfl, rfl⟩

/-- What decodes is `SET_MODE` with a mode's code, or a plain opcode with `ARG` 0 and its operands (rule R85). -/
theorem decode_cons_instr {c : Byte} {bytes rest : List Byte} {i : Instr} (h : decode (c :: bytes) = .instr i rest) :
    (∃ m, c = commandWord 0x6 (modeCode m) ∧ i = .setMode m ∧ rest = bytes) ∨
    (∃ op, plainOpcode op = true ∧ c = commandWord op 0 ∧ decodePlain op bytes = .instr i rest) := by
  have hc := commandWord_fields c
  rw [decode] at h
  split at h
  case isTrue hop =>
    split at h
    next m hm =>
      cases h
      rw [hop, modeOfArg_eq_some hm] at hc
      exact .inl ⟨m, hc.symm, rfl, rfl⟩
    next => cases h
  case isFalse =>
    split at h
    case isTrue hplain =>
      split at h
      case isTrue harg =>
        rw [harg] at hc
        exact .inr ⟨_, hplain, hc.symm, h⟩
      case isFalse => cases h
    case isFalse => cases h

/-- Settles O2: the fields of the command word and the operands taken are what the encoder writes. -/
theorem decodedBytesAreTheEncoding : Obligations.DecodedBytesAreTheEncoding := by
  intro bytes rest i h
  cases bytes with
  | nil => cases h
  | cons c bytes =>
    rcases decode_cons_instr h with ⟨m, rfl, rfl, rfl⟩ | ⟨op, hplain, rfl, hdecode⟩
    · exact ⟨rfl, rfl⟩
    · exact decodePlain_instr hplain hdecode

/-! ### Illegal command words (rules R85, R88, R89) -/

theorem decodePayload_ne_illegal (bytes : List Byte) (why : IllegalWord) (after : List Byte) :
    decodePayload bytes ≠ .illegal why after := by
  cases bytes with
  | nil => nofun
  | cons len bytes => rw [decodePayload]; split <;> nofun

theorem decodeHeader_ne_illegal (bytes : List Byte) (why : IllegalWord) (after : List Byte) :
    decodeHeader bytes ≠ .illegal why after := by
  unfold decodeHeader
  split <;> nofun

/-- Operands are never Illegal: only a command word is. -/
theorem decodePlain_ne_illegal (op : Nibble) (bytes : List Byte) (why : IllegalWord) (after : List Byte) :
    decodePlain op bytes ≠ .illegal why after := by
  by_cases hsend : op = 0x2
  · subst hsend
    exact decodePayload_ne_illegal bytes why after
  by_cases hheader : op = 0x3
  · subst hheader
    exact decodeHeader_ne_illegal bytes why after
  simp only [decodePlain, if_neg hsend, if_neg hheader]
  split_ifs <;> nofun

/-- Why a command word alone is Illegal, and `none` where it is not (rules R85, R88). -/
def illegalReason (c : Byte) : Option IllegalWord :=
  if opField c = 0x6 then
    if (modeOfArg (argField c)).isSome then none else some (.reservedMode (argField c))
  else if plainOpcode (opField c) then
    if argField c = 0 then none else some (.argNotZero (opField c) (argField c))
  else some (.reservedOpcode (opField c))

/-- The decoder answers Illegal for the command word alone, and takes no operand bytes with it (rule R89). -/
theorem decode_cons_eq_illegal_iff (c : Byte) (rest : List Byte) (why : IllegalWord) (after : List Byte) :
    decode (c :: rest) = .illegal why after ↔ illegalReason c = some why ∧ rest = after := by
  rw [decode, illegalReason]
  split
  case isTrue => cases modeOfArg (argField c) <;> simp
  case isFalse =>
    split
    case isTrue =>
      split
      case isTrue => simp [decodePlain_ne_illegal]
      case isFalse => simp
    case isFalse => simp

/-- The command words of the opcode map (rule R84). -/
def legalWords : List Byte :=
  [0x10, 0x20, 0x30, 0x40, 0x50, 0x60, 0x61, 0x62, 0x63, 0x64, 0x70, 0x80, 0x90, 0xA0]

theorem illegalReason_eq_none_iff (c : Byte) : illegalReason c = none ↔ c ∈ legalWords := by
  revert c; decide

/-- Settles O3: a word is Illegal for a reason of its own, which only the legal words do not have. -/
theorem illegalWordsAreExactlyTheReservedOnes : Obligations.IllegalWordsAreExactlyTheReservedOnes := by
  intro c rest
  constructor
  · intro hlegal why after hdecode
    obtain ⟨hwhy, -⟩ := (decode_cons_eq_illegal_iff c rest why after).mp hdecode
    rw [(illegalReason_eq_none_iff c).mpr hlegal] at hwhy
    cases hwhy
  · intro hreserved
    obtain ⟨why, hwhy⟩ := Option.ne_none_iff_exists'.mp (mt (illegalReason_eq_none_iff c).mp hreserved)
    exact ⟨why, (decode_cons_eq_illegal_iff c rest why rest).mpr ⟨hwhy, rfl⟩⟩

/-- Settles O4, by running the decoder on each word. -/
theorem sampleWordsDecode : Obligations.SampleWordsDecode :=
  ⟨rfl, rfl, rfl, rfl, rfl, rfl, rfl, rfl⟩

end Sys2Proof

namespace Sys2Proof.Machine

/-- Settles O6: the word is Illegal, and answering touches the boundary only. -/
theorem illegalWordChangesNoState : Obligations.IllegalWordChangesNoState := by
  intro s c rest hpending hreserved
  obtain ⟨why, hdecode⟩ := (illegalWordsAreExactlyTheReservedOnes c rest).2 hreserved
  rw [step, hpending, hdecode]
  rfl

/-! ### A flipped bit in a symbol pair (rules R96, R117) -/

/-- A pair is invalid as soon as one of its symbols is (rule R114). -/
theorem decodePair_append_eq_none_iff (high low : Symbol) :
    decodePair (high ++ low) = none ↔ decodeSymbol high = none ∨ decodeSymbol low = none := by
  rw [decodePair, BitVec.extractLsb'_append_eq_left, BitVec.extractLsb'_append_eq_right]
  cases decodeSymbol high <;> cases decodeSymbol low <;> simp

/-- Every symbol has three ones (rule R117), so one flipped bit leaves no symbol. -/
theorem decodeSymbol_encodeNibble_flip (n : Nibble) (k : Fin 6) :
    decodeSymbol (encodeNibble n ^^^ BitVec.twoPow 6 k) = none := by
  revert n k; decide

/-- Bit `k` of a pair is bit `k` of the low symbol. -/
theorem twoPow_eq_append_of_lt {k : Nat} (h : k < 6) :
    BitVec.twoPow 12 k = (0 : Symbol) ++ BitVec.twoPow 6 k := by
  interval_cases k <;> rfl

/-- From bit 6 on, it is bit `k - 6` of the high symbol. -/
theorem twoPow_add_six_eq_append {k : Nat} (h : k < 6) :
    BitVec.twoPow 12 (k + 6) = BitVec.twoPow 6 k ++ (0 : Symbol) := by
  interval_cases k <;> rfl

/-- Settles O10: the flipped bit lies in one of the two symbols and leaves that one invalid. -/
theorem singleBitErrorInASymbolIsInvalid : Obligations.SingleBitErrorInASymbolIsInvalid := by
  intro b k hk
  by_cases hlow : k < 6
  · rw [twoPow_eq_append_of_lt hlow, BitVec.xor_append, decodePair_append_eq_none_iff]
    exact .inr (decodeSymbol_encodeNibble_flip (lowNibble b) ⟨k, hlow⟩)
  · obtain ⟨j, rfl⟩ := Nat.exists_eq_add_of_le' (Nat.le_of_not_lt hlow)
    have hj : j < 6 := by omega
    rw [twoPow_add_six_eq_append hj, BitVec.xor_append, decodePair_append_eq_none_iff]
    exact .inl (decodeSymbol_encodeNibble_flip (highNibble b) ⟨j, hj⟩)

/-! ### The views of a frame (rules R101, R232) -/

/-- A frame is the length, the header, the payload and the two CRC bytes (rules R67, R101). -/
theorem frameBytes_eq (s : State) (payload : List Byte) :
    frameBytes s payload = BitVec.ofNat 8 (7 + payload.length) ::
      (headerBytes s ++ (payload ++ [fcsLow (frameData s payload), fcsHigh (frameData s payload)])) := by
  simp [frameBytes, frameData, minFrameLen]

theorem frameHeader_frameBytes (s : State) (payload : List Byte) :
    frameHeader (frameBytes s payload) = headerBytes s := by
  rw [frameHeader, frameBytes_eq]
  rfl

theorem framePayload_frameBytes (s : State) (payload : List Byte) :
    framePayload (frameBytes s payload) = payload := by
  have hdrop : (frameBytes s payload).drop 5 =
      payload ++ [fcsLow (frameData s payload), fcsHigh (frameData s payload)] := by
    rw [frameBytes_eq]
    rfl
  rw [framePayload, hdrop, frameBytes_length, minFrameLen, Nat.add_sub_cancel_left, List.take_left]

theorem frameCrc_frameBytes (s : State) (payload : List Byte) :
    frameCrc (frameBytes s payload) = [fcsLow (frameData s payload), fcsHigh (frameData s payload)] := by
  have hlen : (frameBytes s payload).length - 2 = (frameData s payload).length := by
    rw [frameBytes_length, frameData_length]
    omega
  rw [frameCrc, hlen, frameBytes, List.drop_left]

/-- Settles O38: each view is the part of the frame it names. -/
theorem viewsOfASentFrame : Obligations.ViewsOfASentFrame := by
  intro s payload _
  refine ⟨frameBytes_length s payload, ?_, frameHeader_frameBytes s payload, framePayload_frameBytes s payload,
    frameCrc_frameBytes s payload⟩
  rw [frameBytes_eq, List.getElem?_cons_zero]

end Sys2Proof.Machine
end

section
/-! PROOFS of the family 40_symbol_codec: decoding a symbol inverts the table, and decoding a pair inverts the
encoding of a byte. -/

namespace Sys2Proof.Machine

/-! ### The table and its inverse (rules R95, R112 to R116) -/

/-- The position the search answers holds the symbol searched for, in every table. -/
theorem getElem?_of_symbolIndex_eq_some {table : List Symbol} {s : Symbol} {i : Nat}
    (h : symbolIndex table s = some i) : table[i]? = some s := by
  induction table generalizing i with
  | nil => cases h
  | cons entry table ih =>
    rw [symbolIndex] at h
    split at h
    case isTrue heq =>
      cases h
      simp [heq]
    case isFalse =>
      obtain ⟨j, hj, rfl⟩ := Option.map_eq_some_iff.1 h
      rw [List.getElem?_cons_succ, ih hj]

/-- What `DECODE_SYMBOL` answers for `s` is a nibble whose entry is `s`: the search stops on an entry equal to `s`,
and the position of an entry fits in a nibble (rule R113). -/
theorem encodeNibble_of_decodeSymbol {s : Symbol} {n : Nibble} (h : decodeSymbol s = some n) :
    encodeNibble n = s := by
  obtain ⟨i, hi, rfl⟩ := Option.map_eq_some_iff.1 h
  have hentry : symbolTable[i]? = some s := getElem?_of_symbolIndex_eq_some hi
  have hbound : i < 16 := (List.getElem?_eq_some_iff.1 hentry).1
  rw [encodeNibble, BitVec.toNat_ofNat, Nat.mod_eq_of_lt hbound, List.getD_eq_getElem?_getD, hentry]
  rfl

/-- Settles O8: each symbol of the pair decodes to its half of the byte. -/
theorem decodePairOfEncodeByte : Obligations.DecodePairOfEncodeByte := decodePair_encodeByte

/-- Settles O9: what is decoded has its entry at `s`, and the entries are distinct. -/
theorem decodeSymbolIsTheInverseOfTheTable : Obligations.DecodeSymbolIsTheInverseOfTheTable := by
  intro s n
  constructor
  · exact encodeNibble_of_decodeSymbol
  · rintro rfl
    exact decodeSymbol_encodeNibble n

end Sys2Proof.Machine
end

section
/-! PROOFS of the family 41_crc16: the residue after any frame check sequence, and the detection of one changed
byte. -/

namespace Sys2Proof.Machine

/-- Settles O12: the bytes appended are the FCS of the sequence, and SEND appends them to its data. -/
theorem crcResidueOfEveryFrame : Obligations.CrcResidueOfEveryFrame :=
  ⟨crc16_append_fcs, crcCheck_frameBytes⟩

theorem crcCheck_eq_true_iff (frame : List Byte) : crcCheck frame = true ↔ crc16 frame = crcResidue :=
  decide_eq_true_iff

/-- Sequences that differ in one byte at most have the same CRC only where they are equal: the running value
before the byte is common, and the bytes after it keep distinct values distinct (rule R137). -/
theorem crc16_byte_injective (before after : List Byte) {b c : Byte}
    (h : crc16 (before ++ b :: after) = crc16 (before ++ c :: after)) : b = c := by
  rw [crc16_append, crc16_append, List.foldl_cons, List.foldl_cons] at h
  exact crcUpdate_byte_injective (crc16 before) (crcFold_injective after h)

/-- Settles O13: were both sequences to pass, their CRCs would agree in the residue. -/
theorem crcDetectsOneChangedByte : Obligations.CrcDetectsOneChangedByte := by
  intro before after b c hne hpass
  refine Bool.eq_false_iff.mpr fun hpass' => hne ?_
  rw [crcCheck_eq_true_iff] at hpass hpass'
  exact crc16_byte_injective before after (hpass.trans hpass'.symm)

end Sys2Proof.Machine
end

section
/-! PROOFS of the family 42_tx_shift_register: the header registers, the frame SEND assembles entry by entry, the
pump tick by tick, and the course of a transmission from SEND to its drain. -/

namespace Sys2Proof.Machine

/-! ### What SET_HEADER and TX_DONE answer (rules R153, R165) -/

/-- Settles O14: SET_HEADER has one case, in every mode. -/
theorem setHeaderWritesTheHeader : Obligations.SetHeaderWritesTheHeader :=
  fun _ _ _ _ _ => ⟨rfl, rfl⟩

/-- Settles O21: TX_DONE has one case, and its data byte is the negation of the test for Tx. -/
theorem txDoneTellsWhetherModeIsTx : Obligations.TxDoneTellsWhetherModeIsTx := by
  refine ⟨rfl, fun s => ?_⟩
  have hbyte : boolByte (decide (s.mode ≠ .tx)) = if s.mode = .tx then 0 else 1 := by
    by_cases h : s.mode = .tx <;> simp [h, boolByte]
  rw [← hbyte]
  rfl

/-! ### The three answers of SEND (rule R156) -/

theorem exec_send_of_tx {s : State} (h : s.mode = .tx) (payload : List Byte) :
    exec (.send payload) s = .next (respond s .busy [] none) := if_pos h

theorem exec_send_of_tooLong {payload : List Byte} {s : State} (h : s.mode ≠ .tx)
    (hlen : maxMsgLen < payload.length) : exec (.send payload) s = .next (respond s .tooLong [] none) :=
  (if_neg h).trans (if_pos hlen)

theorem exec_send_of_accepted {payload : List Byte} {s : State} (h : s.mode ≠ .tx)
    (hlen : payload.length ≤ maxMsgLen) :
    exec (.send payload) s = .next (respond (startSend payload s) .ok [] none) :=
  (if_neg h).trans (if_neg (Nat.not_lt.mpr hlen))

/-! ### The entries of a transmission (rules R97 to R99) -/

theorem txEntries_preamble (s : State) (payload : List Byte) {a : Nat} (h : a < 8) :
    (txEntries s payload)[a]? = some 0x2A := by
  have hlen : preambleEntries.length = 8 := rfl
  rw [txEntries, List.append_assoc, List.getElem?_append_left (hlen ▸ h), preambleEntries,
    List.getElem?_replicate_of_lt h]

theorem txEntries_start (s : State) (payload : List Byte) :
    (txEntries s payload)[8]? = some 0x2C ∧ (txEntries s payload)[9]? = some 0x38 := ⟨rfl, rfl⟩

/-- The entries of the frame's j-th byte stand from index 10 + 2j on (rule R99). -/
theorem txEntries_frameByte (s : State) (payload : List Byte) {j : Nat} {b : Byte}
    (h : (frameBytes s payload)[j]? = some b) :
    (txEntries s payload)[10 + 2 * j]? = some ((encodeByte b).1.setWidth 8) ∧
      (txEntries s payload)[11 + 2 * j]? = some ((encodeByte b).2.setWidth 8) := by
  have hpair := byteEntries_flatMap_getElem? (frameBytes s payload) j b h
  rw [← txEntries_drop, List.getElem?_drop, List.getElem?_drop] at hpair
  rwa [show 11 + 2 * j = 10 + (2 * j + 1) by omega]

/-- TXB holds the transmission after the accepted SEND. -/
theorem startSend_read_of_txEntries {payload : List Byte} {s : State} {a : Nat} {entry : Byte}
    (h : (txEntries s payload)[a]? = some entry) : (startSend payload s).txb.read a = some entry := by
  have hlt := (List.getElem?_eq_some_iff.mp h).1
  rw [txEntries_length] at hlt
  rw [startSend_read, if_pos hlt, h]

/-- Settles O15: the accepted SEND writes the entries of the transmission and nothing above them. -/
theorem sendAssemblesTheFrame : Obligations.SendAssemblesTheFrame := by
  intro payload s
  refine ⟨rfl, fun h => exec_send_of_tx h payload, fun h hlen => exec_send_of_tooLong h hlen, fun h hlen => ?_⟩
  refine ⟨respond (startSend payload s) .ok [] none, 7 + payload.length, frameData s payload, frameBytes s payload,
    rfl, rfl, rfl, exec_send_of_accepted h hlen, ?_⟩
  obtain ⟨hstart₁, hstart₂⟩ := txEntries_start s payload
  rw [respond_txb]
  refine ⟨rfl, fun a ha => startSend_read_of_txEntries (txEntries_preamble s payload ha),
    startSend_read_of_txEntries hstart₁, startSend_read_of_txEntries hstart₂, ?frame, ?rest⟩
  case frame =>
    intro j b hb
    obtain ⟨hfirst, hsecond⟩ := txEntries_frameByte s payload hb
    exact ⟨startSend_read_of_txEntries hfirst, startSend_read_of_txEntries hsecond⟩
  case rest => exact fun a ha => (startSend_read payload s a).trans (if_neg (Nat.not_lt.mpr ha))

/-! ### One tick of the pump (rules R160, R243, R251) -/

theorem txStep_of_held {s : State} (h : s.txSample ≠ 0) : txStep s = nextTxSample s := if_neg h

theorem txStep_of_sent {s : State} (h : s.txSample = 0) (hend : s.txBitIndex = 6 * s.txLen) :
    txStep s = drain s := (if_pos h).trans (if_pos hend)

theorem txStep_of_due {s : State} (h : s.txSample = 0) (hmore : s.txBitIndex ≠ 6 * s.txLen) :
    txStep s = nextTxSample (emitBit s) := (if_pos h).trans (if_neg hmore)

/-- The drain enters Rx from a mode that does not listen, so the PLL is reset (rules R190, R246). -/
theorem drain_of_tx {s : State} (h : s.mode = .tx) :
    drain s = { pllReset s with txLevel := false, txLen := 0, txBitIndex := 0, mode := .rx } := by
  simp [drain, enter, enterReset, h, listening, pllReset]

/-- The state a `TICK` answers with. -/
def tickAnswered (s : State) : State := answerTick (tick s)

theorem exec_tick (s : State) : exec .tick s = .next (tickAnswered s) := rfl

theorem tickAnswered_of_tx {s : State} (h : s.mode = .tx) : tickAnswered s = answerTick (txStep (countTick s)) := by
  rw [tickAnswered, tick_of_tx h]

/-- Settles O16: the three cases of the pump. -/
theorem tickInTxRunsThePump : Obligations.TickInTxRunsThePump := by
  intro s hm
  rw [exec_tick, tickAnswered_of_tx hm]
  refine ⟨fun h => ?_, fun h hend => ?_, fun h hmore entry hentry => ?_⟩
  · rw [txStep_of_held (s := countTick s) h]
    rfl
  · rw [txStep_of_sent (s := countTick s) h hend, drain_of_tx (s := countTick s) hm]
    rfl
  · subst hentry
    have hnext : (countTick s).txSample + 1 = 1 := congrArg (· + 1) h
    rw [txStep_of_due (s := countTick s) h hmore, nextTxSample, emitBit_txSample, hnext]
    rfl

/-! ### Only the drain leaves Tx (rule R163) -/

/-- A pump that leaves Tx has nothing more to send. -/
theorem sent_of_txStep_mode_ne {s : State} (hm : s.mode = .tx) (h : (txStep s).mode ≠ .tx) :
    s.txSample = 0 ∧ s.txBitIndex = 6 * s.txLen := by
  by_cases hsample : s.txSample = 0
  · by_cases hend : s.txBitIndex = 6 * s.txLen
    · exact ⟨hsample, hend⟩
    · rw [txStep_of_due hsample hend] at h
      exact absurd hm h
  · rw [txStep_of_held hsample] at h
    exact absurd hm h

theorem exec_startCad_of_tx {s : State} (h : s.mode = .tx) :
    exec .startCad s = .next (respond s .rejected [] none) := by
  simp [exec, execStartCad, startCad, answer, h]

theorem exec_setMode_of_tx {s : State} (h : s.mode = .tx) (m : Mode) :
    exec (.setMode m) s = .next (respond s .rejected [] none) := by
  simp [exec, execSetMode, setMode, answer, h]

/-- Settles O20: no operation but TICK touches a transmission, and a TICK leaves Tx by the drain alone. -/
theorem transmissionCannotBeCancelled : Obligations.TransmissionCannotBeCancelled := by
  intro s hm
  refine ⟨exec_send_of_tx hm, exec_setMode_of_tx hm, exec_startCad_of_tx hm, fun i t hexec hleft => ?_⟩
  by_cases hi : i = .tick
  · subst hi
    rw [exec_tick, tickAnswered_of_tx hm] at hexec
    cases hexec
    exact ⟨rfl, sent_of_txStep_mode_ne (s := countTick s) hm hleft⟩
  · exact absurd (transmissionCannotBeDisturbed i s t hm hi hexec).1 hleft

/-! ### The course of a transmission (rules R161, R162) -/

/-- Bit k of the transmission of `entries` (rule R25); none where it has ended. -/
def transmissionBit (entries : List Byte) (k : Nat) : Option Bool := entries[k / 6]?.map (entryBit · k)

/-- How many bit periods of `tpb` ticks have begun after `m` ticks. -/
def bitsStarted (tpb m : Nat) : Nat := m / tpb + if m % tpb = 0 then 0 else 1

theorem bitsStarted_of_mod_eq_zero {tpb m : Nat} (h : m % tpb = 0) : bitsStarted tpb m = m / tpb := by
  simp [bitsStarted, h]

theorem bitsStarted_of_mod_ne_zero {tpb m : Nat} (h : m % tpb ≠ 0) : bitsStarted tpb m = m / tpb + 1 := by
  simp [bitsStarted, h]

/-- Tick m + 1 belongs to the bit period numbered m / TPB, whether or not it ends that period. -/
theorem bitsStarted_succ (tpb m : Nat) : bitsStarted tpb (m + 1) = m / tpb + 1 := by
  simp only [bitsStarted, Nat.succ_div, Nat.dvd_iff_mod_eq_zero]
  split <;> rfl

/-- The transmission of `entries`, with `tpb` ticks to a bit, has run for `m` ticks and has not drained; the line
holds the bit of the last tick. -/
structure Transmitting (entries : List Byte) (tpb m : Nat) (s : State) : Prop where
  mode : s.mode = .tx
  period : s.tpb = tpb
  length : s.txLen = entries.length
  stored : ∀ a, a < entries.length → s.txb.read a = entries[a]?
  sample : s.txSample = m % tpb
  index : s.txBitIndex = bitsStarted tpb m
  level : ∀ j, m = j + 1 → transmissionBit entries (j / tpb) = some s.txLevel

/-- No tick has passed right after the accepted SEND. -/
theorem transmitting_of_send (payload : List Byte) (s : State) :
    Transmitting (txEntries s payload) s.tpb 0 (respond (startSend payload s) .ok [] none) where
  mode := rfl
  period := rfl
  length := (txEntries_length s payload).symm
  stored a ha := by rw [respond_txb, startSend_read, if_pos (txEntries_length s payload ▸ ha)]
  sample := (Nat.zero_mod _).symm
  index := by simp [bitsStarted]
  level _ h := by omega

theorem Transmitting.sample_succ {entries : List Byte} {tpb m : Nat} {s : State} (h : Transmitting entries tpb m s) :
    (s.txSample + 1) % s.tpb = (m + 1) % tpb := by rw [h.sample, h.period, Nat.mod_add_mod]

/-- The bit the pump reads from TXB is the transmission's (rule R25). -/
theorem Transmitting.transmissionBit_eq {entries : List Byte} {tpb m k : Nat} {s : State}
    (h : Transmitting entries tpb m s) (hk : k < 6 * entries.length) :
    transmissionBit entries k = some (entryBit (readTxb s (k / 6)) k) := by
  have hlt : k / 6 < entries.length := Nat.div_lt_of_lt_mul hk
  have hread : s.txb.read (k / 6) = some entries[k / 6] := by rw [h.stored _ hlt, List.getElem?_eq_getElem hlt]
  rw [transmissionBit, List.getElem?_eq_getElem hlt, readTxb, Memory.entry_of_read hread, Option.map_some]

/-- Where a bit period has ended and a bit is left, the tick puts that bit on the line. -/
theorem Transmitting.tick_due {entries : List Byte} {tpb m : Nat} {s : State} (h : Transmitting entries tpb m s)
    (hdue : m % tpb = 0) (hmore : m / tpb < 6 * entries.length) :
    Transmitting entries tpb (m + 1) (tickAnswered s) := by
  have hindex : s.txBitIndex = m / tpb := h.index.trans (bitsStarted_of_mod_eq_zero hdue)
  have hunsent : s.txBitIndex ≠ 6 * s.txLen := by rw [hindex, h.length]; exact hmore.ne
  rw [tickAnswered_of_tx h.mode, txStep_of_due (s := countTick s) (h.sample.trans hdue) hunsent]
  refine ⟨h.mode, h.period, h.length, h.stored, h.sample_succ, ?index, ?level⟩
  case index =>
    rw [bitsStarted_succ, ← hindex]
    rfl
  case level =>
    intro j hj
    cases hj
    rw [h.transmissionBit_eq hmore, ← hindex]
    rfl

/-- Within a bit period the tick holds the bit on the line. -/
theorem Transmitting.tick_held {entries : List Byte} {tpb m : Nat} {s : State} (h : Transmitting entries tpb m s)
    (hheld : m % tpb ≠ 0) : Transmitting entries tpb (m + 1) (tickAnswered s) := by
  have hindex : s.txBitIndex = m / tpb + 1 := h.index.trans (bitsStarted_of_mod_ne_zero hheld)
  rw [tickAnswered_of_tx h.mode, txStep_of_held (s := countTick s) (h.sample ▸ hheld)]
  refine ⟨h.mode, h.period, h.length, h.stored, h.sample_succ, hindex.trans (bitsStarted_succ tpb m).symm, ?level⟩
  intro j hj
  cases hj
  cases m with
  | zero => exact absurd (Nat.zero_mod tpb) hheld
  | succ i =>
    rw [Nat.succ_div_of_not_dvd fun hdvd => hheld (Nat.dvd_iff_mod_eq_zero.mp hdvd)]
    exact h.level i rfl

theorem ticks_eq_iterate (m : Nat) (s : State) : ticks m s = .next (tickAnswered^[m] s) := by
  induction m generalizing s with
  | zero => rfl
  | succ m ih => exact ih (tickAnswered s)

/-- The transmission runs through all its bit periods. -/
theorem Transmitting.iterate {entries : List Byte} {tpb m : Nat} {s : State} (h : Transmitting entries tpb 0 s)
    (hm : m ≤ 6 * entries.length * tpb) : Transmitting entries tpb m (tickAnswered^[m] s) := by
  induction m with
  | zero => exact h
  | succ m ih =>
    have hrun := ih (Nat.le_of_succ_le hm)
    rw [Function.iterate_succ_apply']
    by_cases hdue : m % tpb = 0
    · exact hrun.tick_due hdue (Nat.div_lt_of_lt_mul (Nat.mul_comm _ tpb ▸ hm))
    · exact hrun.tick_held hdue

/-- The tick after the last bit period drains. -/
theorem Transmitting.tick_last {entries : List Byte} {tpb : Nat} {s : State} (htpb : 0 < tpb)
    (h : Transmitting entries tpb (6 * entries.length * tpb) s) :
    (tickAnswered s).mode = .rx ∧ (tickAnswered s).txLen = 0 ∧ (tickAnswered s).txLevel = false := by
  have hdue : 6 * entries.length * tpb % tpb = 0 := Nat.mul_mod_left _ _
  have hsent : s.txBitIndex = 6 * s.txLen := by
    rw [h.index, bitsStarted_of_mod_eq_zero hdue, Nat.mul_div_cancel _ htpb, h.length]
  rw [tickAnswered_of_tx h.mode, txStep_of_sent (s := countTick s) (h.sample.trans hdue) hsent,
    drain_of_tx (s := countTick s) h.mode]
  exact ⟨rfl, rfl, rfl⟩

/-- Settles O17: tick j + 1 of the transmission has bit j / TPB on the line. -/
theorem bitScheduleOfATransmission : Obligations.BitScheduleOfATransmission := by
  intro payload s k m hmode hlen _ hk hlo hhi
  have hend : m ≤ 6 * (txEntries s payload).length * s.tpb := by
    rw [txEntries_length]
    exact hhi.trans (Nat.mul_le_mul_right _ hk)
  have hrun := (transmitting_of_send payload s).iterate hend
  obtain ⟨j, rfl⟩ : ∃ j, m = j + 1 := ⟨m - 1, by omega⟩
  have hbit : j / s.tpb = k := Nat.div_eq_of_lt_le (by omega) (by omega)
  obtain ⟨entry, hentry, hlevel⟩ := Option.map_eq_some_iff.mp (hbit ▸ hrun.level j rfl)
  exact ⟨_, _, entry, exec_send_of_accepted hmode hlen, ticks_eq_iterate _ _, hentry, hlevel.symm⟩

/-- Settles O18: every tick up to the end of the last bit period keeps Tx, and the next one drains. -/
theorem drainTimeOfATransmission : Obligations.DrainTimeOfATransmission := by
  intro payload s hmode hlen htpb
  have hbits : 60 + 12 * (7 + payload.length) = 6 * (txEntries s payload).length := by
    rw [txEntries_length]
    omega
  have hbound : 6 * (txEntries s payload).length * s.tpb + 1 ≤ (10 + 2 + 8 + 2 * payload.length + 4) * 8 * s.tpb :=
    calc 6 * (txEntries s payload).length * s.tpb + 1
      _ ≤ 6 * (txEntries s payload).length * s.tpb + s.tpb := Nat.add_le_add_left htpb _
      _ = (6 * (txEntries s payload).length + 1) * s.tpb := (Nat.succ_mul _ _).symm
      _ ≤ (10 + 2 + 8 + 2 * payload.length + 4) * 8 * s.tpb := Nat.mul_le_mul_right _ (by omega)
  have hstart := transmitting_of_send payload s
  have hdrained := (hstart.iterate le_rfl).tick_last htpb
  rw [← Function.iterate_succ_apply' tickAnswered] at hdrained
  obtain ⟨hrx, hempty, hlow⟩ := hdrained
  rw [hbits]
  exact ⟨_, exec_send_of_accepted hmode hlen, fun m hm => ⟨_, ticks_eq_iterate m _, (hstart.iterate hm).mode⟩,
    _, ticks_eq_iterate _ _, hrx, hempty, hlow, hbound⟩

end Sys2Proof.Machine
end

section
/-! PROOFS of the family 43_rx_pll: the ramp increments, the slicer and the window shift, and a tick within a bit
window. -/

namespace Sys2Proof.Machine

/-! ### The ramp, the slicer and the window (rules R184, R187, R188) -/

theorem rampInc_steady (tpb ramp : Nat) : rampInc tpb false ramp = rampBase tpb := rfl

/-- A transition in the first half of the ramp retards it. -/
theorem rampInc_early {ramp : Nat} (h : ramp < rampTransition) (tpb : Nat) :
    rampInc tpb true ramp = rampRetard tpb := if_pos h

/-- A transition in the second half advances it. -/
theorem rampInc_late {ramp : Nat} (h : rampTransition ≤ ramp) (tpb : Nat) :
    rampInc tpb true ramp = rampAdvance tpb := if_neg (Nat.not_lt.mpr h)

/-- At a legal TPB the base increment exceeds the adjustment, so retarding it does not truncate. -/
theorem rampRetard_add_adjust {tpb : Nat} (h2 : 2 ≤ tpb) (h16 : tpb ≤ 16) :
    rampRetard tpb + rampAdjust = rampBase tpb := by
  obtain ⟨hpos, -⟩ := ramp_constants h2 h16
  exact Nat.sub_add_cancel (Nat.lt_of_sub_pos hpos).le

/-- Settles O22: one equation per case of the increment, the least of which is the retarded one. -/
theorem rampIncrementTable : Obligations.RampIncrementTable := by
  intro tpb ramp h2 h16
  obtain ⟨hpos, -⟩ := ramp_constants h2 h16
  refine ⟨rampInc_steady tpb ramp, fun h => ?_, fun h => rampInc_late h tpb,
    hpos.trans (rampInc_bounds true ramp).1⟩
  rw [rampInc_early h]
  exact rampRetard_add_adjust h2 h16

theorem shiftWindow_toNat (w : Window) (bit : Bool) :
    (shiftWindow w bit).toNat = (2 * w.toNat + bit.toNat) % 4096 := by
  rw [shiftWindow_eq_shiftConcat, BitVec.toNat_shiftConcat, Nat.shiftLeft_eq, Nat.mul_comm, pow_one]

/-- Settles O27: the slicer is its comparison, and the window shift doubles and adds the bit. -/
theorem slicerAndWindowShift : Obligations.SlicerAndWindowShift :=
  ⟨fun _ _ => decide_eq_true_iff, shiftWindow_toNat⟩

/-! ### A tick in Rx or Cad (rules R186, R244, R253, R254) -/

/-- Below the wrap the tick stays within its bit window. -/
theorem pllStep_of_lt {s : State} {level : Bool} (h : rampSum s level < rampLen) :
    pllStep level s = withinBit s level := if_neg (Nat.not_le.mpr h)

/-- A busy event marks the tick and nothing else. -/
theorem busyEvent_eq (level : Bool) (s : State) :
    busyEvent level s = { s with lastBusy := (busyEvent level s).lastBusy } := by
  unfold busyEvent
  split <;> rfl

/-- Leaving Cad changes the mode and nothing else. -/
theorem cadExit_eq (s : State) : cadExit s = { s with mode := (cadExit s).mode } := by
  unfold cadExit
  split
  · split <;> rfl
  · rfl

/-- All that RX_TICK does beyond the demodulator is to `last_busy` and the mode. -/
theorem rxTick_eq_pllStep (level : Bool) (s : State) :
    rxTick level s =
      { pllStep level s with lastBusy := (rxTick level s).lastBusy, mode := (rxTick level s).mode } := by
  unfold rxTick
  rw [cadExit_lastBusy, cadExit_eq, busyEvent_eq]

theorem tick_eq_pllStep {s : State} (h : listening s.mode = true) :
    tick s = { pllStep (rxIn s) (consumeRx (countTick s)) with
      lastBusy := (tick s).lastBusy, mode := (tick s).mode } := by
  rw [tick_of_listening h]
  exact rxTick_eq_pllStep _ _

/-- Settles O23: below the wrap the demodulator only advances the ramp and the integrator. -/
theorem tickWithinABitWindow : Obligations.TickWithinABitWindow := by
  rintro s _ _ hm rfl rfl hlt
  have htick := tick_eq_pllStep (listening_iff.mpr hm)
  rw [pllStep_of_lt (s := consumeRx (countTick s)) hlt] at htick
  refine ⟨answerTick (tick s), rfl, ?_⟩
  rw [htick]
  exact ⟨rfl, rfl⟩

end Sys2Proof.Machine
end

section
/-! PROOFS of the family 44_frame_fsm: what one bit tick does in each state of the frame machine, and how the host
sees and drains a delivered frame. -/

namespace Sys2Proof.Machine

/-! ### What AVAILABLE and RECEIVE answer (rules R230, R231) -/

/-- Settles O35: AVAILABLE has one case, and its data byte is `rx_good`. -/
theorem availableReadsRxGood : Obligations.AvailableReadsRxGood := ⟨rfl, fun _ => rfl⟩

theorem exec_receive_of_empty {s : State} (h : s.rxGood = false) :
    exec .receive s = .next (respond s .empty [] none) := if_neg (Bool.eq_false_iff.mp h)

theorem exec_receive_of_delivered {s : State} (h : s.rxGood = true) :
    exec .receive s = .next (respond (clearDelivered s) .ok (readRxb s s.rxCount) none) := if_pos h

theorem frameState_of_waiting {s : State} (hg : s.rxGood = false) (ha : s.rxActive = false) :
    frameState s = .waitStart := by
  simp [frameState, hg, ha]

/-- Settles O36: the two answers of RECEIVE; the drain clears `rx_good`, so the next RECEIVE answers Empty. -/
theorem receiveDrainsTheFrame : Obligations.ReceiveDrainsTheFrame := by
  refine ⟨rfl, fun s => ⟨exec_receive_of_empty, ?_⟩⟩
  rintro _ hg rfl
  exact ⟨_, exec_receive_of_delivered hg, rfl, exec_receive_of_empty rfl, fun ha => frameState_of_waiting rfl ha⟩

/-! ### One step of the frame machine, case by case (rules R211 to R225) -/

theorem frameStep_of_waiting {s : State} (ha : s.rxActive = false) (hg : s.rxGood = false) :
    frameStep s = syncTest s := by
  simp [frameStep, ha, hg]

theorem syncTest_of_startSymbol {s : State} (h : s.rxWindow = startSymbol) :
    syncTest s = recordGhost { s with rxActive := true, rxBitCount := 0, rxBufLen := 0, rxCount := 0 } .sync :=
  if_pos h

theorem syncTest_of_other {s : State} (h : s.rxWindow ≠ startSymbol) : syncTest s = s := if_neg h

theorem frameStep_of_receiving {s : State} (ha : s.rxActive = true) : frameStep s = byteStep s := if_pos ha

theorem byteStep_of_within {s : State} (h : s.rxBitCount ≠ 11) :
    byteStep s = { s with rxBitCount := s.rxBitCount + 1 } := if_neg (by omega)

theorem byteStep_of_invalid {s : State} (h : s.rxBitCount = 11) (hv : decodePair s.rxWindow = none) :
    byteStep s = abort { s with rxBitCount := 0 } .invalidSymbol := by
  simp [byteStep, h, hv]

theorem byteStep_of_byte {s : State} {v : Byte} (h : s.rxBitCount = 11) (hv : decodePair s.rxWindow = some v) :
    byteStep s = takeByte { s with rxBitCount := 0 } v := by
  simp [byteStep, h, hv]

theorem takeByte_of_badLength {s : State} {v : Byte} (h : s.rxBufLen = 0)
    (hv : v.toNat < minFrameLen ∨ rxBufCap < v.toNat) : takeByte s v = abort s .badLength := by
  have hfails : ¬lengthPasses v = true := by
    simp only [lengthPasses, Bool.and_eq_true, decide_eq_true_eq]
    omega
  rw [takeByte, if_pos h, if_neg hfails]

theorem takeByte_of_later {s : State} (h : s.rxBufLen ≠ 0) (v : Byte) : takeByte s v = append s v := if_neg h

theorem append_of_more {s : State} (h : s.rxBufLen + 1 ≠ s.rxCount) (v : Byte) : append s v = store s v := if_neg h

theorem readRxb_store_of_last {s : State} (hlt : s.rxBufLen < rxBufCap) (h : s.rxBufLen + 1 = s.rxCount) (v : Byte) :
    readRxb (store s v) (store s v).rxCount = readRxb s s.rxBufLen ++ [v] := by
  rw [store_rxCount, ← h, store_readRxb hlt]

/-- The byte that completes a frame delivers it where the CRC over all its bytes holds. -/
theorem append_of_good {s : State} {v : Byte} (hlt : s.rxBufLen < rxBufCap) (h : s.rxBufLen + 1 = s.rxCount)
    (hcrc : crc16 (readRxb s s.rxBufLen ++ [v]) = crcResidue) :
    append s v = recordGhost { store s v with rxGood := true, rxActive := false } .good := by
  rw [← readRxb_store_of_last hlt h, ← crcCheck_eq_true_iff] at hcrc
  rw [append, if_pos h, verify, if_pos hcrc]

/-- Otherwise it discards the frame. -/
theorem append_of_bad {s : State} {v : Byte} (hlt : s.rxBufLen < rxBufCap) (h : s.rxBufLen + 1 = s.rxCount)
    (hcrc : crc16 (readRxb s s.rxBufLen ++ [v]) ≠ crcResidue) : append s v = abort (store s v) .badCrc := by
  rw [← readRxb_store_of_last hlt h, ne_eq, ← crcCheck_eq_true_iff] at hcrc
  rw [append, if_pos h, verify, if_neg hcrc]

/-! ### A bit tick is one step of the frame machine (rules R186, R244) -/

/-- `b` is what a bit tick from `s` hands to the frame machine: the tick counted, the line sampled, the bit in the
window. -/
structure BitReceived (s b : State) : Prop where
  base : ∀ t, bitTickBase s t = { b with lastBusy := t.lastBusy, mode := t.mode, env := t.env }
  window : b.rxWindow = nextWindow s
  active : b.rxActive = s.rxActive
  bits : b.rxBitCount = s.rxBitCount
  rxb : b.rxb = s.rxb
  length : b.rxBufLen = s.rxBufLen
  count : b.rxCount = s.rxCount
  good : b.rxGood = s.rxGood
  tickCount : b.tickCount = s.tickCount + 1
  ghost : b.env.ghost = s.env.ghost

theorem bitOut_eq_bitTickBase (s : State) :
    bitOut (consumeRx (countTick s)) (rxIn s) = bitTickBase s (consumeRx s) := rfl

theorem bitReceived_bitTickBase (s : State) : BitReceived s (bitTickBase s (consumeRx s)) := by
  constructor <;> simp [bitTickBase]

/-- `t` is `u` but for what a listening tick does once the frame machine has stepped: the busy event, the test for
leaving Cad, and the answer (rules R253, R254, R334). -/
structure TickEnds (u t : State) : Prop where
  block : t = { u with lastBusy := t.lastBusy, mode := t.mode, env := t.env }
  ghost : t.env.ghost = u.env.ghost

theorem TickEnds.rxb {u t : State} (h : TickEnds u t) : t.rxb = u.rxb := by rw [h.block]

theorem pllStep_of_le {s : State} {level : Bool} (h : rampLen ≤ rampSum s level) :
    pllStep level s = frameStep (bitOut s level) := if_pos h

/-- A bit tick is one `FRAME_STEP` from what was received, before the busy event and the answer (rule R186). -/
theorem exec_tick_of_bitTick {s : State} (h : IsBitTick s) :
    ∃ b t, exec .tick s = .next t ∧ BitReceived s b ∧ TickEnds (frameStep b) t := by
  have htick := tick_eq_pllStep h.1
  rw [pllStep_of_le (s := consumeRx (countTick s)) h.2, bitOut_eq_bitTickBase] at htick
  refine ⟨_, answerTick (tick s), rfl, bitReceived_bitTickBase s, ?_⟩
  rw [htick]
  exact ⟨rfl, rfl⟩

/-- Settles O28: the frame machine holds a delivered frame, so only the demodulator has moved. -/
theorem deliveredFrameIsHeld : Obligations.DeliveredFrameIsHeld := by
  intro s hbit ha hg
  obtain ⟨b, t, hexec, hb, hends⟩ := exec_tick_of_bitTick hbit
  rw [frameStep_of_delivered (hb.good.trans hg) (hb.active.trans ha)] at hends
  refine ⟨t, hexec, ?_⟩
  rw [hb.base, ← hb.ghost]
  exact ⟨hends.block, hends.ghost⟩

/-- Settles O29: the whole window is compared with the start symbol. -/
theorem syncAcquiresTheStartSymbol : Obligations.SyncAcquiresTheStartSymbol := by
  intro s hbit ha hg
  obtain ⟨b, t, hexec, hb, hends⟩ := exec_tick_of_bitTick hbit
  rw [frameStep_of_waiting (hb.active.trans ha) (hb.good.trans hg)] at hends
  refine ⟨fun hw => ⟨t, hexec, ?_⟩, fun hw => ⟨t, hexec, ?_⟩⟩
  · rw [syncTest_of_startSymbol (hb.window.trans hw)] at hends
    rw [hb.base, ← hb.ghost, ← hb.tickCount]
    exact ⟨hends.block, hends.ghost⟩
  · rw [syncTest_of_other (hb.window.trans_ne hw)] at hends
    rw [hb.base, ← hb.ghost]
    exact ⟨hends.block, hends.ghost⟩

/-! ### Bit ticks while a frame is received (rules R214 to R225) -/

/-- Settles O30: before the 12th bit of a byte the frame machine only counts. -/
theorem bitOfAByteIsCounted : Obligations.BitOfAByteIsCounted := by
  intro s hbit ha hcount
  obtain ⟨b, t, hexec, hb, hends⟩ := exec_tick_of_bitTick hbit
  rw [frameStep_of_receiving (hb.active.trans ha), byteStep_of_within (hb.bits.trans_ne hcount)] at hends
  refine ⟨t, hexec, ?_⟩
  rw [← hb.bits, hb.base, ← hb.ghost]
  exact ⟨hends.block, hends.ghost⟩

/-- The 12th bit of a pair that decodes hands the byte to the frame (rule R214). -/
theorem exec_tick_of_byte {s : State} {v : Byte} (hbit : IsBitTick s) (ha : s.rxActive = true)
    (hcount : s.rxBitCount = 11) (hv : decodePair (nextWindow s) = some v) :
    ∃ b t, exec .tick s = .next t ∧ BitReceived s b ∧ TickEnds (takeByte { b with rxBitCount := 0 } v) t := by
  obtain ⟨b, t, hexec, hb, hends⟩ := exec_tick_of_bitTick hbit
  rw [frameStep_of_receiving (hb.active.trans ha), byteStep_of_byte (hb.bits.trans hcount) (hb.window ▸ hv)] at hends
  exact ⟨b, t, hexec, hb, hends⟩

/-- Settles O31: an undecodable pair and a first byte outside the gate abort before anything is stored. -/
theorem invalidSymbolOrLengthAborts : Obligations.InvalidSymbolOrLengthAborts := by
  intro s hbit ha hcount
  constructor
  · intro hinvalid
    obtain ⟨b, t, hexec, hb, hends⟩ := exec_tick_of_bitTick hbit
    rw [frameStep_of_receiving (hb.active.trans ha),
      byteStep_of_invalid (hb.bits.trans hcount) (hb.window ▸ hinvalid)] at hends
    refine ⟨t, hexec, ?_⟩
    rw [hb.base, ← hb.ghost, ← hb.tickCount]
    exact ⟨hends.block, hends.ghost⟩
  · intro v hv hfirst hlength
    obtain ⟨b, t, hexec, hb, hends⟩ := exec_tick_of_byte hbit ha hcount hv
    rw [takeByte_of_badLength (s := { b with rxBitCount := 0 }) (hb.length.trans hfirst) hlength] at hends
    refine ⟨t, hexec, ?_⟩
    rw [hb.base, ← hb.ghost, ← hb.tickCount]
    exact ⟨hends.block, hends.ghost⟩

/-- A tick that stores a byte as entry `n` of `RXB`. -/
theorem TickEnds.of_store {u t : State} {v : Byte} {n : Nat} (h : TickEnds (store u v) t) (hlen : u.rxBufLen = n)
    (hlt : n < rxBufCap) :
    t = { u with rxb := t.rxb, rxBufLen := n + 1, lastBusy := t.lastBusy, mode := t.mode, env := t.env } ∧
      t.env.ghost = u.env.ghost ∧ ∀ a, t.rxb.read a = if a = n then some v else u.rxb.read a := by
  subst hlen
  rw [store_of_lt hlt] at h
  rw [h.rxb]
  exact ⟨h.block, h.ghost, fun a => Memory.read_write u.rxb _ a v⟩

/-- Settles O32: both a passing length byte and a later byte short of the last are stored. -/
theorem byteIsAppended : Obligations.ByteIsAppended := by
  intro s v hbit ha hcount hv
  obtain ⟨b, t, hexec, hb, hends⟩ := exec_tick_of_byte hbit ha hcount hv
  constructor
  · intro hfirst hlo hhi
    have hempty : b.rxBufLen = 0 := hb.length.trans hfirst
    rw [takeByte_of_lengthPasses (s := { b with rxBitCount := 0 }) hempty hlo hhi] at hends
    refine ⟨t, hexec, ?_⟩
    rw [hb.base, ← hb.ghost, ← hb.rxb]
    exact hends.of_store hempty (by decide)
  · intro hlater hlt hmore
    have hmore' : b.rxBufLen + 1 ≠ b.rxCount := by rwa [hb.length, hb.count]
    rw [takeByte_of_later (s := { b with rxBitCount := 0 }) (hb.length.trans_ne hlater),
      append_of_more (s := { b with rxBitCount := 0 }) hmore'] at hends
    refine ⟨t, hexec, ?_⟩
    rw [hb.base, ← hb.ghost, ← hb.rxb]
    exact hends.of_store hb.length hlt

/-- Settles O33: the last byte is stored and the CRC over it and the bytes held chooses between delivery and abort. -/
theorem lastByteIsVerified : Obligations.LastByteIsVerified := by
  rintro s v _ hbit ha hcount hv hlater hlt hlast rfl
  obtain ⟨b, t, hexec, hb, hends⟩ := exec_tick_of_byte hbit ha hcount hv
  rw [takeByte_of_later (s := { b with rxBitCount := 0 }) (hb.length.trans_ne hlater)] at hends
  have hlt' : b.rxBufLen < rxBufCap := hb.length.trans_lt hlt
  have hlast' : b.rxBufLen + 1 = b.rxCount := by rwa [hb.length, hb.count]
  have hbody : readRxb b b.rxBufLen = readRxb s s.rxBufLen := by rw [readRxb, readRxb, hb.rxb, hb.length]
  have hrxb : t.rxb = b.rxb.write b.rxBufLen v := by
    rw [hends.rxb, append_rxb, ← store_rxb]
    exact store_rxb_of_lt (s := { b with rxBitCount := 0 }) hlt' v
  refine ⟨t, hexec, ?_⟩
  rw [← hbody, ← hb.rxb, ← hlast, ← hb.length, hrxb, hb.base, ← hb.ghost, ← hb.tickCount]
  refine ⟨fun a => Memory.read_write b.rxb _ a v, fun hgood => ?_, fun hbad => ?_⟩
  · rw [append_of_good (s := { b with rxBitCount := 0 }) hlt' hlast' hgood,
      store_of_lt (s := { b with rxBitCount := 0 }) hlt'] at hends
    exact ⟨hends.block, hends.ghost⟩
  · rw [append_of_bad (s := { b with rxBitCount := 0 }) hlt' hlast' hbad,
      store_of_lt (s := { b with rxBitCount := 0 }) hlt'] at hends
    exact ⟨hends.block, hends.ghost⟩

end Sys2Proof.Machine
end

section
/-! PROOFS of the family 45_mode_fsm: what SET_MODE, START_CAD, IS_CHANNEL_BUSY and GET_MODE answer in every mode,
the tick in each mode that is not Tx, which changes of mode there are, and how long Cad lasts. -/

namespace Sys2Proof.Machine

/-! ### The moves of SET_MODE and START_CAD (rules R246 to R249) -/

/-- The changes of mode a host may ask for (rule R247). -/
abbrev HostMove (a b : Mode) : Prop :=
  (a = .sleep ∧ b = .idle) ∨ (a = .idle ∧ b = .sleep) ∨ (a = .idle ∧ b = .rx) ∨ (a = .rx ∧ b = .idle) ∨
    (a = .rx ∧ b = .cad)

theorem HostMove.ne {a b : Mode} (h : HostMove a b) : b ≠ a := by
  rcases h with ⟨rfl, rfl⟩ | ⟨rfl, rfl⟩ | ⟨rfl, rfl⟩ | ⟨rfl, rfl⟩ | ⟨rfl, rfl⟩ <;> decide

/-- SET_MODE of the current mode (but Tx) changes nothing, a host move is made by entering, and every other request
is Rejected (rule R248): the table, pair by pair. -/
theorem setMode_eq (m : Mode) (s : State) :
    setMode m s =
      if m = s.mode ∧ m ≠ .tx then (.ok, s)
      else if HostMove s.mode m then (.ok, enter m s)
      else (.rejected, s) := by
  cases hs : s.mode <;> cases m <;> simp [setMode, startCad, plainMove, hs]

theorem setMode_of_move {m : Mode} {s : State} (h : HostMove s.mode m) : setMode m s = (.ok, enter m s) := by
  rw [setMode_eq, if_neg (fun hsame => h.ne hsame.1), if_pos h]

/-- SET_MODE Cad is START_CAD in every mode (rules R248, R249). -/
theorem setMode_cad (s : State) : setMode .cad s = startCad s := by
  rw [setMode_eq]
  rcases startCad_cases s with ⟨hs, h⟩ | ⟨hs, -⟩ | ⟨hcad, hrx, h⟩
  · rw [if_pos ⟨hs.symm, by decide⟩, h]
  · rw [startCad, hs]
    rfl
  · rw [if_neg (fun hsame => hcad hsame.1.symm), if_neg (by simp [hrx]), h]

theorem exec_setMode (m : Mode) (s : State) : exec (.setMode m) s = .next (answer (setMode m s)) := rfl

theorem exec_startCad (s : State) : exec .startCad s = .next (answer (startCad s)) := rfl

/-- A mode that does not listen is entered without a PLL reset (rule R246). -/
theorem enter_of_not_listening {m : Mode} (h : listening m = false) (s : State) : enter m s = { s with mode := m } := by
  have hcad : m ≠ .cad := by
    rintro rfl
    cases h
  rw [enter, enterReset_eq_self (.inl h), if_neg hcad]

theorem enter_cad_of_rx {s : State} (h : s.mode = .rx) :
    enter .cad s = { s with mode := .cad, lastBusy := s.tickCount } := by
  rw [enter, enterReset_eq_self (.inr (listening_iff.mpr (.inl h))), if_pos rfl]

theorem enter_rx_of_idle {s : State} (h : s.mode = .idle) : enter .rx s = { pllReset s with mode := .rx } := by
  simp [enter, enterReset, listening, h]

/-- The refused requests of rule R247 are neither for the current mode nor host moves. -/
theorem not_hostMove_of_refused {a b : Mode}
    (h : a = .tx ∨ b = .tx ∨ (a = .sleep ∧ (b = .rx ∨ b = .cad)) ∨ (a = .idle ∧ b = .cad) ∨
      (a = .rx ∧ b = .sleep) ∨ (a = .cad ∧ b ≠ .cad)) : ¬ (b = a ∧ b ≠ .tx) ∧ ¬ HostMove a b := by
  rcases h with rfl | rfl | ⟨rfl, rfl | rfl⟩ | ⟨rfl, rfl⟩ | ⟨rfl, rfl⟩ | ⟨rfl, hb⟩
  case inr.inr.inr.inr.inr => simp [hb]
  all_goals simp

/-- Settles O41: the pairs are told apart by the three lines of `setMode_eq`. -/
theorem setModeOfEveryPair : Obligations.SetModeOfEveryPair := by
  intro m s
  rw [exec_setMode]
  refine ⟨by cases m <;> rfl, fun hsame htx => ?same, fun h => ?plain, fun hs hm => ?toRx, fun hs hm => ?toCad,
    fun h => ?refused⟩
  case same =>
    rw [setMode_eq, if_pos ⟨hsame, htx⟩]
    rfl
  case plain =>
    have hmove : HostMove s.mode m := by tauto
    have hm : listening m = false := by rcases h with ⟨-, rfl⟩ | ⟨-, rfl⟩ | ⟨-, rfl⟩ <;> rfl
    rw [setMode_of_move hmove, enter_of_not_listening hm]
    rfl
  case toRx =>
    subst hm
    rw [setMode_of_move (.inr (.inr (.inl ⟨hs, rfl⟩))), enter_rx_of_idle hs]
    rfl
  case toCad =>
    subst hm
    rw [setMode_of_move (.inr (.inr (.inr (.inr ⟨hs, rfl⟩)))), enter_cad_of_rx hs]
    rfl
  case refused =>
    obtain ⟨hsame, hmove⟩ := not_hostMove_of_refused h
    rw [setMode_eq, if_neg hsame, if_neg hmove]
    rfl

/-- Settles O42: START_CAD moves from Rx alone. -/
theorem startCadOfEveryMode : Obligations.StartCadOfEveryMode := by
  refine ⟨rfl, fun s => ?_⟩
  rw [exec_startCad]
  refine ⟨fun hcad => ?_, fun hrx => ?_, fun hcad hrx => ?_⟩
  · rw [startCad, if_pos hcad]
    rfl
  · rw [← setMode_cad, setMode_of_move (.inr (.inr (.inr (.inr ⟨hrx, rfl⟩)))), enter_cad_of_rx hrx]
    rfl
  · rw [startCad, if_neg hcad, if_neg hrx]
    rfl

/-! ### What IS_CHANNEL_BUSY and GET_MODE answer (rules R257, R258, R262) -/

theorem exec_isChannelBusy (s : State) :
    exec .isChannelBusy s = .next { s with env := observe s [0x00, boolByte (channelBusy s)] none } := rfl

/-- In Rx and Cad the channel is busy until the quiet interval reaches `CAD_TIMEOUT`. -/
theorem channelBusy_of_listening {s : State} (h : s.mode = .rx ∨ s.mode = .cad) :
    channelBusy s = decide (quietTicks s < s.cadTimeout) := by
  have hquiet : channelBusy s = !channelQuiet s := by rcases h with h | h <;> simp only [channelBusy, h]
  rw [hquiet, channelQuiet, ← decide_not, decide_eq_decide, Nat.not_le]

theorem channelBusy_of_tx {s : State} (h : s.mode = .tx) : channelBusy s = true := by simp only [channelBusy, h]

theorem channelBusy_of_resting {s : State} (h : s.mode = .sleep ∨ s.mode = .idle) : channelBusy s = false := by
  rcases h with h | h <;> simp only [channelBusy, h]

/-- The quiet interval as a difference of natural numbers, modulo 2^32 (rule R257). -/
theorem quietTicks_eq (s : State) : quietTicks s = (s.tickCount.toNat + 2 ^ 32 - s.lastBusy.toNat) % 2 ^ 32 := by
  have hlt := s.lastBusy.isLt
  rw [quietTicks, BitVec.toNat_sub, Nat.add_comm s.tickCount.toNat, Nat.sub_add_comm hlt.le]

/-- Settles O43: `channelBusy` in each mode, and in Cad the invariant keeps the interval below the timeout. -/
theorem isChannelBusyOfEveryMode : Obligations.IsChannelBusyOfEveryMode := by
  refine ⟨rfl, fun s => ?_⟩
  rw [exec_isChannelBusy]
  refine ⟨fun hcad hinv => ?_, fun htx => ?_, fun h => ⟨_, rfl, ?_⟩, fun h => ?_⟩
  · rw [channelBusy_of_listening (.inr hcad), decide_eq_true (hinv.cad hcad)]
    rfl
  · rw [channelBusy_of_tx htx]
    rfl
  · rw [channelBusy_of_listening h, ← quietTicks_eq]
    simp only [boolByte, decide_eq_true_eq]
  · rw [channelBusy_of_resting h]
    rfl

/-- Settles O44: the data byte is the mode's code, zero-extended. -/
theorem getModeReadsTheCode : Obligations.GetModeReadsTheCode := by
  refine ⟨rfl, fun s => ⟨modeByte s.mode, rfl, ?_⟩⟩
  cases s.mode <;> decide

/-! ### A tick in Sleep, Idle, Rx and Cad (rules R242, R244, R253, R254) -/

theorem tickAnswered_of_resting {s : State} (h : s.mode = .sleep ∨ s.mode = .idle) :
    tickAnswered s = answerTick (countTick s) := by
  refine congrArg answerTick (tick_of_resting ?_ ?_) <;> rcases h with h | h <;> simp [h, listening]

/-- Settles O39: the tick is counted and answered. -/
theorem tickInSleepOrIdleOnlyCounts : Obligations.TickInSleepOrIdleOnlyCounts := by
  intro s h
  rw [exec_tick, tickAnswered_of_resting h]
  rfl

theorem busyTick_iff {level : Bool} {s : State} : busyTick level s = true ↔
    (s.cadBusySource = .rxHigh ∧ level = true) ∨ (s.cadBusySource = .syncActive ∧ s.rxActive = true) := by
  unfold busyTick
  cases s.cadBusySource <;> simp

theorem busyEvent_lastBusy (level : Bool) (s : State) :
    (busyEvent level s).lastBusy = if busyTick level s = true then s.tickCount else s.lastBusy := by
  unfold busyEvent
  split <;> rfl

theorem cadExit_mode (s : State) :
    (cadExit s).mode = if s.mode = .cad ∧ s.cadTimeout ≤ quietTicks s then .rx else s.mode := by
  unfold cadExit channelQuiet
  by_cases hm : s.mode = .cad <;> by_cases hq : s.cadTimeout ≤ quietTicks s <;> simp [hm, hq]

/-- Settles O24: the busy event and then the exit test follow the demodulator, which touches neither `last_busy` nor
the mode. -/
theorem busyEventAndCadExit : Obligations.BusyEventAndCadExit := by
  intro s t hm hexec
  cases hexec
  have hsame := pllStep_sameOutside (rxIn s) (consumeRx (countTick s))
  simp only [tick_of_listening (listening_iff.mpr hm), rxTick, answerTick_lastBusy, answerTick_mode,
    answerTick_rxActive, answerTick_tickCount, cadExit_lastBusy, cadExit_rxActive, cadExit_tickCount, cadExit_mode]
  constructor
  · simp only [busyEvent_lastBusy, busyTick_iff, hsame.cadBusySource, hsame.tickCount, hsame.lastBusy,
      busyEvent_rxActive]
    rfl
  · simp only [busyEvent_mode, busyEvent_cadTimeout, hsame.mode, hsame.cadTimeout]
    rfl

/-! ### Every change of mode (rule R240) -/

/-- A request that leaves the mode leaves everything. -/
theorem setMode_of_mode_eq {m : Mode} {s : State} (h : (setMode m s).2.mode = s.mode) :
    setMode m s = (if m = s.mode ∧ m ≠ .tx then .ok else .rejected, s) := by
  by_cases hmove : HostMove s.mode m
  · rw [setMode_of_move hmove] at h
    exact absurd h hmove.ne
  · rw [setMode_eq, if_neg hmove, apply_ite (Prod.mk · s)]

/-- A SET_MODE that changes the mode makes a host move. -/
theorem hostMove_of_setMode_mode_ne {m : Mode} {s : State} (h : (setMode m s).2.mode ≠ s.mode) :
    HostMove s.mode m := by
  by_contra hmove
  rw [setMode_eq, if_neg hmove] at h
  split at h <;> exact absurd rfl h

/-- A tick that changes the mode is the CAD timeout or the drain. -/
theorem tick_mode_ne {s : State} (h : (tick s).mode ≠ s.mode) :
    (s.mode = .cad ∧ (tick s).mode = .rx ∧ s.cadTimeout ≤ quietTicks (tick s)) ∨
    (s.mode = .tx ∧ (tick s).mode = .rx ∧ s.txSample = 0 ∧ s.txBitIndex = 6 * s.txLen) := by
  rcases mode_cases s.mode with ⟨htx, hl⟩ | hm | ⟨-, hl⟩
  · rw [tick_of_resting htx hl] at h
    exact absurd rfl h
  · rw [tick_of_tx hm] at h ⊢
    obtain ⟨hsample, hend⟩ := sent_of_txStep_mode_ne (s := countTick s) hm (hm ▸ h)
    rw [txStep_of_sent hsample hend]
    exact .inr ⟨hm, rfl, hsample, hend⟩
  · obtain ⟨-, hmode⟩ := busyEventAndCadExit s _ (listening_iff.mp hl) (exec_tick s)
    split at hmode
    · rename_i hexit
      exact .inl ⟨hexit.1, hmode, hexit.2⟩
    · exact absurd hmode h

/-- SET_MODE and START_CAD, where they leave the mode, leave everything and answer by whether it is the mode asked for
(rules R247 to R249). -/
theorem request_of_mode_eq {i : Instr} {m : Mode} {s t : State} (hi : i = .setMode m ∨ (i = .startCad ∧ m = .cad))
    (hexec : exec i s = .next t) (hmode : t.mode = s.mode) :
    t = { s with env := observe s [if m = s.mode ∧ m ≠ .tx then 0x00 else 0x03] none } := by
  have hrequest : exec i s = .next (answer (setMode m s)) := by
    rcases hi with rfl | ⟨rfl, rfl⟩
    · rfl
    · rw [setMode_cad, exec_startCad]
  cases hrequest.symm.trans hexec
  rw [setMode_of_mode_eq hmode]
  split <;> rfl

/-- Settles O40: only TICK, SEND, SET_MODE and START_CAD have an effect on the mode, each with its rows. -/
theorem everyModeChangeIsInTheTable : Obligations.EveryModeChangeIsInTheTable := by
  refine ⟨fun i m s t => request_of_mode_eq, fun i s t hexec hne => ?_⟩
  obtain ⟨u, status, data, out, rfl, heffect⟩ := exec_effect hexec
  cases heffect with
  | unchanged => exact absurd rfl hne
  | setHeader => exact absurd rfl hne
  | receive => exact absurd rfl hne
  | tick =>
    rcases tick_mode_ne hne with ⟨hs, ht, hquiet⟩ | ⟨hs, ht, hsent⟩
    · exact .inr (.inr (.inr (.inr (.inr (.inl ⟨hs, ht, rfl, hquiet⟩)))))
    · exact .inr (.inr (.inr (.inr (.inr (.inr (.inr ⟨hs, ht, rfl, hsent⟩))))))
  | @send payload hm hlen =>
    have ht : (respond (startSend payload s) status data out).mode = .tx := startSend_mode payload s
    exact .inr (.inr (.inr (.inr (.inr (.inr (.inl ⟨hm, ht, payload, rfl, hlen⟩))))))
  | startCad hs => exact .inr (.inr (.inr (.inr (.inl ⟨hs, rfl, .inl rfl⟩))))
  | @setMode m =>
    have hmode : (setMode m s).2.mode = m := congrArg State.mode (Host.Outcome.next.inj hexec)
    have hmove : HostMove s.mode m := hostMove_of_setMode_mode_ne (hmode.trans_ne hne)
    rcases hmove with ⟨hs, rfl⟩ | ⟨hs, rfl⟩ | ⟨hs, rfl⟩ | ⟨hs, rfl⟩ | ⟨hs, rfl⟩ <;> simp [hs]

/-! ### Sleep beside Idle (rule R250) -/

/-- Sleep is left by a row of the mode table. -/
theorem left_sleep {i : Instr} {s t : State} (hs : s.mode = .sleep) (hexec : exec i s = .next t)
    (ht : t.mode ≠ .sleep) : i = .setMode .idle ∨ ∃ payload, i = .send payload := by
  obtain ⟨-, htable⟩ := everyModeChangeIsInTheTable
  have hrow := htable i s t hexec (hs ▸ ht)
  simp only [hs, reduceCtorEq, true_and, false_and, false_or, or_false] at hrow
  rcases hrow with ⟨-, rfl⟩ | ⟨-, -, payload, rfl, -⟩
  · exact .inl rfl
  · exact .inr ⟨payload, rfl⟩

/-- The same state, asleep where it was idle. -/
def asleep (t : State) : State := { t with mode := if t.mode = .idle then .sleep else t.mode }

theorem asleep_of_idle {t : State} (h : t.mode = .idle) : asleep t = { t with mode := .sleep } := by
  rw [asleep, if_pos h]

theorem asleep_of_not_idle {t : State} (h : t.mode ≠ .idle) : asleep t = t := by
  rw [asleep, if_neg h]

theorem respond_asleep (s : State) (status : Status) (data : List Byte) (out : Option Bool) :
    respond (asleep s) status data out = asleep (respond s status data out) := rfl

/-- The accepted SEND overwrites the mode and reads no mode. -/
theorem startSend_asleep (payload : List Byte) (s : State) : startSend payload (asleep s) = startSend payload s := by
  have hentries : txEntries (asleep s) payload = txEntries s payload := by
    simp only [txEntries, frameBytes, frameData, headerBytes, asleep]
  rw [startSend, hentries]
  rfl

theorem execSend_asleep {s : State} (h : s.mode = .idle) (payload : List Byte) :
    ∃ t, exec (.send payload) s = .next t ∧ exec (.send payload) (asleep s) = .next (asleep t) := by
  have hsleep : (asleep s).mode ≠ .tx := by simp [asleep_of_idle h]
  by_cases hlen : payload.length ≤ maxMsgLen
  · refine ⟨_, exec_send_of_accepted (by simp [h]) hlen, ?_⟩
    rw [exec_send_of_accepted hsleep hlen, startSend_asleep, asleep_of_not_idle (by simp)]
  · refine ⟨_, exec_send_of_tooLong (by simp [h]) (by omega), ?_⟩
    rw [exec_send_of_tooLong hsleep (by omega), respond_asleep]

theorem execReceive_asleep (s : State) :
    ∃ t, exec .receive s = .next t ∧ exec .receive (asleep s) = .next (asleep t) := by
  cases hg : s.rxGood with
  | true => exact ⟨_, exec_receive_of_delivered hg, exec_receive_of_delivered (s := asleep s) hg⟩
  | false => exact ⟨_, exec_receive_of_empty hg, exec_receive_of_empty (s := asleep s) hg⟩

/-- Every operation but SET_MODE and GET_MODE does in Sleep what it does in Idle. -/
theorem exec_asleep {i : Instr} {s : State} (h : s.mode = .idle) (hget : i ≠ .getMode)
    (hset : ∀ m, i ≠ .setMode m) :
    ∃ t, exec i s = .next t ∧ exec i (asleep s) = .next (asleep t) := by
  have hsleep : (asleep s).mode = .sleep := by rw [asleep_of_idle h]
  cases i with
  | tick =>
    refine ⟨_, exec_tick s, ?_⟩
    rw [exec_tick, tickAnswered_of_resting (.inl hsleep), tickAnswered_of_resting (.inr h)]
    rfl
  | send payload => exact execSend_asleep h payload
  | setHeader dest src ident flags => exact ⟨_, rfl, rfl⟩
  | available => exact ⟨_, rfl, rfl⟩
  | receive => exact execReceive_asleep s
  | setMode m => exact absurd rfl (hset m)
  | startCad =>
    refine ⟨_, exec_startCad s, ?_⟩
    rw [exec_startCad, startCad, startCad, hsleep, h]
    rfl
  | isChannelBusy =>
    refine ⟨_, exec_isChannelBusy s, ?_⟩
    rw [exec_isChannelBusy, channelBusy_of_resting (.inl hsleep), channelBusy_of_resting (.inr h)]
    rfl
  | txDone =>
    refine ⟨_, rfl, ?_⟩
    simp only [exec, execTxDone, hsleep, h]
    rfl
  | getMode => exact absurd rfl hget

/-- Settles O45: the mode table gives what leaves Sleep, and `exec_asleep` everything else. -/
theorem sleepBehavesAsIdle : Obligations.SleepBehavesAsIdle := by
  refine ⟨fun i s t => left_sleep, fun i s t hs hget hset hexec => ?_⟩
  obtain ⟨u, hu, hasleep⟩ := exec_asleep hs hget hset
  cases hu.symm.trans hexec
  rwa [asleep_of_idle hs] at hasleep

/-! ### How long Cad lasts on a quiet line (rules R252, R254, R255) -/

/-- The tick count advances by one in every tick in Rx or Cad (rule R241). -/
theorem tickAnswered_tickCount {s : State} (h : listening s.mode = true) :
    (tickAnswered s).tickCount = s.tickCount + 1 := by
  rw [tickAnswered, answerTick_tickCount, tick_eq_pllStep h]
  exact (pllStep_sameOutside _ _).tickCount

theorem rxIn_of_cons {s : State} {level : Bool} {later : List Bool} (h : s.env.rxDraws = level :: later) :
    rxIn s = level := by
  rw [rxIn, h]

/-- `k` ticks have passed since Cad was entered with a quiet channel, under RX-level detection, and the line stays
low until `timeout` of them have. -/
structure QuietSinceCad (timeout k : Nat) (rest : List Bool) (u : State) : Prop where
  mode : u.mode = if k < timeout then .cad else .rx
  source : u.cadBusySource = .rxHigh
  configured : u.cadTimeout = timeout
  quiet : quietTicks u = k
  draws : u.env.rxDraws = List.replicate (timeout - k) false ++ rest

theorem quietSinceCad_of_entered {s : State} {rest : List Bool} (hpos : 1 ≤ s.cadTimeout)
    (hsource : s.cadBusySource = .rxHigh) (hdraws : s.env.rxDraws = List.replicate s.cadTimeout false ++ rest) :
    QuietSinceCad s.cadTimeout 0 rest
      { s with mode := .cad, lastBusy := s.tickCount, env := observe s [0x00] none } where
  mode := (if_pos hpos).symm
  source := hsource
  configured := rfl
  quiet := by simp [quietTicks]
  draws := hdraws

/-- A tick that is no busy event lengthens the quiet interval by one, and Cad is left when that reaches
`CAD_TIMEOUT`. -/
theorem QuietSinceCad.tick {timeout k : Nat} {rest : List Bool} {u : State} (h : QuietSinceCad timeout k rest u)
    (hk : k < timeout) (hwidth : timeout < 2 ^ 32) : QuietSinceCad timeout (k + 1) rest (tickAnswered u) := by
  have hcad : u.mode = .cad := h.mode.trans (if_pos hk)
  have hdraws : u.env.rxDraws = false :: (List.replicate (timeout - (k + 1)) false ++ rest) := by
    rw [h.draws, show timeout - k = timeout - (k + 1) + 1 by omega, List.replicate_succ, List.cons_append]
  have hcount := tickAnswered_tickCount (listening_iff.mpr (.inr hcad))
  have hsame := tick_sameHostState u
  obtain ⟨htail, -⟩ := listeningTickDrawsOnce u _ (.inr hcad) (exec_tick u)
  obtain ⟨hbusy, hmode⟩ := busyEventAndCadExit u _ (.inr hcad) (exec_tick u)
  rw [if_neg (by simp [rxIn_of_cons hdraws, h.source])] at hbusy
  have hquiet : quietTicks (tickAnswered u) = k + 1 := by
    have hk' := h.quiet
    rw [quietTicks] at hk' ⊢
    rw [hcount, hbusy]
    bv_omega
  have hexit : (u.mode = .cad ∧ u.cadTimeout ≤ quietTicks (tickAnswered u)) ↔ ¬ k + 1 < timeout := by
    rw [hquiet, h.configured, Nat.not_lt]
    exact and_iff_right hcad
  exact {
    mode := by rw [hmode, ← quietTicks, if_congr hexit rfl hcad, ite_not]
    source := hsame.cadBusySource.trans h.source
    configured := hsame.cadTimeout.trans h.configured
    quiet := hquiet
    draws := by rw [htail, hdraws, List.tail_cons] }

theorem QuietSinceCad.iterate {timeout k : Nat} {rest : List Bool} {u : State} (h : QuietSinceCad timeout 0 rest u)
    (hk : k ≤ timeout) (hwidth : timeout < 2 ^ 32) : QuietSinceCad timeout k rest (tickAnswered^[k] u) := by
  induction k with
  | zero => exact h
  | succ k ih =>
    rw [Function.iterate_succ_apply']
    exact (ih (Nat.le_of_succ_le hk)).tick hk hwidth

/-- Settles O46: the quiet interval counts the ticks since START_CAD. -/
theorem quietCadLastsCadTimeoutTicks : Obligations.QuietCadLastsCadTimeoutTicks := by
  intro s rest hinv hrx hsource hdraws
  obtain ⟨-, -, hpos, hwidth⟩ := hinv.config
  obtain ⟨-, hstart⟩ := startCadOfEveryMode
  obtain ⟨-, henters, -⟩ := hstart s
  have hentered := quietSinceCad_of_entered hpos hsource hdraws
  refine ⟨_, henters hrx, fun k hk => ⟨_, ticks_eq_iterate k _, ?_⟩, _, ticks_eq_iterate _ _, ?_⟩
  · exact (hentered.iterate hk.le hwidth).mode.trans (if_pos hk)
  · exact (hentered.iterate le_rfl hwidth).mode.trans (if_neg (lt_irrefl _))

end Sys2Proof.Machine
end

section
/-! PROOFS of the family 60_exceptions: the ghost events an operation records, and that every operation answers. -/

namespace Sys2Proof.Machine

/-! ### What does not read the boundary -/

/-- What the operation `i` does to the block in `s`, and what it answers, is the same at every boundary. -/
def IgnoresEnv (i : Instr) (s : State) : Prop :=
  ∃ (u : State) (status : Status) (data : List Byte) (out : Option Bool), ∀ e : Env,
    exec i { s with env := e } = .next (respond { u with env := e } status data out)

theorem enter_withEnv (m : Mode) (s : State) (e : Env) : enter m { s with env := e } = { enter m s with env := e } := by
  unfold enter enterReset
  split <;> rfl

theorem setMode_withEnv (m : Mode) (s : State) :
    ∃ (status : Status) (u : State), ∀ e : Env, setMode m { s with env := e } = (status, { u with env := e }) := by
  by_cases hsame : m = s.mode ∧ m ≠ .tx
  · exact ⟨.ok, s, fun e => by rw [setMode_eq, if_pos hsame]⟩
  by_cases hmove : HostMove s.mode m
  · exact ⟨.ok, enter m s, fun e => by rw [setMode_of_move (s := { s with env := e }) hmove, enter_withEnv]⟩
  · exact ⟨.rejected, s, fun e => by rw [setMode_eq, if_neg hsame, if_neg hmove]⟩

theorem setMode_ignoresEnv (m : Mode) (s : State) : IgnoresEnv (.setMode m) s := by
  obtain ⟨status, u, h⟩ := setMode_withEnv m s
  exact ⟨u, status, [], none, fun e => by rw [exec_setMode, h e]; rfl⟩

theorem startCad_ignoresEnv (s : State) : IgnoresEnv .startCad s := by
  obtain ⟨u, status, data, out, h⟩ := setMode_ignoresEnv .cad s
  exact ⟨u, status, data, out, fun e => by rw [← h e, exec_setMode, setMode_cad, exec_startCad]⟩

theorem startSend_withEnv (payload : List Byte) (s : State) (e : Env) :
    startSend payload { s with env := e } = { startSend payload s with env := e } := by
  have hentries : txEntries { s with env := e } payload = txEntries s payload := by
    simp only [txEntries, frameBytes, frameData, headerBytes]
  simp only [startSend, hentries]

theorem send_ignoresEnv (payload : List Byte) (s : State) : IgnoresEnv (.send payload) s := by
  by_cases htx : s.mode = .tx
  · exact ⟨s, .busy, [], none, fun e => exec_send_of_tx (s := { s with env := e }) htx payload⟩
  by_cases hlen : payload.length ≤ maxMsgLen
  · exact ⟨startSend payload s, .ok, [], none, fun e => by
      rw [exec_send_of_accepted (s := { s with env := e }) htx hlen, startSend_withEnv]⟩
  · exact ⟨s, .tooLong, [], none, fun e => exec_send_of_tooLong (s := { s with env := e }) htx (by omega)⟩

theorem receive_ignoresEnv (s : State) : IgnoresEnv .receive s := by
  cases hg : s.rxGood with
  | true =>
    exact ⟨clearDelivered s, .ok, readRxb s s.rxCount, none,
      fun e => exec_receive_of_delivered (s := { s with env := e }) hg⟩
  | false => exact ⟨s, .empty, [], none, fun e => exec_receive_of_empty (s := { s with env := e }) hg⟩

/-- Only a tick in Rx or Cad reads the boundary, for the level of the line (rule R71). -/
theorem exec_ignoresEnv {i : Instr} {s : State} (h : ¬ (i = .tick ∧ listening s.mode = true)) : IgnoresEnv i s := by
  cases i with
  | tick =>
    have hl : listening s.mode = false := by simpa using h
    refine ⟨tick s, .ok, [], some (tick s).txLevel, fun e => ?_⟩
    rw [exec_tick, tickAnswered, (tick_withEnv hl e).2]
    rfl
  | send payload => exact send_ignoresEnv payload s
  | setHeader dest src ident flags =>
    exact ⟨{ s with hdrTo := dest, hdrFrom := src, hdrId := ident, hdrFlags := flags }, .ok, [], none, fun _ => rfl⟩
  | available => exact ⟨s, .ok, [boolByte s.rxGood], none, fun _ => rfl⟩
  | receive => exact receive_ignoresEnv s
  | setMode m => exact setMode_ignoresEnv m s
  | startCad => exact startCad_ignoresEnv s
  | isChannelBusy => exact ⟨s, .ok, [boolByte (channelBusy s)], none, fun _ => rfl⟩
  | txDone => exact ⟨s, .ok, [boolByte (decide (s.mode ≠ .tx))], none, fun _ => rfl⟩
  | getMode => exact ⟨s, .ok, [modeByte s.mode], none, fun _ => rfl⟩

/-! ### Ghost events in the receive chain (rules R220, R282, R285) -/

/-- The state with another list of ghost events recorded. -/
def withGhost (s : State) (g : List (Ticks × GhostEvent)) : State := { s with env := { s.env with ghost := g } }

/-- From `s` the update `f` neither reads the ghost events nor records one. -/
def GhostBlind (f : State → State) (s : State) : Prop := ∀ g, f (withGhost s g) = withGhost (f s) g

/-- No ghost event, or one with the tick count `n`. -/
def AtMostOneEvent (n : Ticks) (l : List (Ticks × GhostEvent)) : Prop := l = [] ∨ ∃ e, l = [(n, e)]

/-- From `s` the update `f` adds at most one event to the list and does not read what stands there. -/
def RecordsAtMostOne (f : State → State) (s : State) : Prop :=
  ∃ l, AtMostOneEvent s.tickCount l ∧ ∀ g, f (withGhost s g) = withGhost (f s) (g ++ l)

theorem GhostBlind.records {f : State → State} {s : State} (h : GhostBlind f s) : RecordsAtMostOne f s :=
  ⟨[], .inl rfl, fun g => by rw [h g, List.append_nil]⟩

theorem GhostBlind.ite {c : State → Prop} [∀ s, Decidable (c s)] {f f' : State → State} {s : State}
    (hc : ∀ g, c (withGhost s g) ↔ c s) (hf : GhostBlind f s) (hf' : GhostBlind f' s) :
    GhostBlind (fun s => if c s then f s else f' s) s := by
  intro g
  simp only [hc g, hf g, hf' g]
  exact (apply_ite (withGhost · g) _ _ _).symm

/-- An update that records after one that does not. -/
theorem RecordsAtMostOne.after {f b : State → State} {s : State} (hf : RecordsAtMostOne f (b s)) (hb : GhostBlind b s)
    (hcount : (b s).tickCount = s.tickCount) : RecordsAtMostOne (fun s => f (b s)) s := by
  obtain ⟨l, hl, h⟩ := hf
  exact ⟨l, hcount ▸ hl, fun g => (congrArg f (hb g)).trans (h g)⟩

/-- An update that does not record after one that may. -/
theorem RecordsAtMostOne.andThen {f b : State → State} {s : State} (hf : RecordsAtMostOne f s)
    (hb : ∀ t, GhostBlind b t) : RecordsAtMostOne (fun s => b (f s)) s := by
  obtain ⟨l, hl, h⟩ := hf
  exact ⟨l, hl, fun g => (congrArg b (h g)).trans (hb _ _)⟩

/-- Whatever the list, `f` does here what `f'` does. -/
theorem RecordsAtMostOne.congr {f f' : State → State} {s : State} (h : RecordsAtMostOne f' s)
    (hsame : ∀ g, f (withGhost s g) = f' (withGhost s g)) : RecordsAtMostOne f s := by
  obtain ⟨l, hl, h⟩ := h
  have hs : f s = f' s := hsame s.env.ghost
  exact ⟨l, hl, fun g => by rw [hsame g, h g, hs]⟩

/-- A branch on a condition that does not see the list. -/
theorem RecordsAtMostOne.ite {c : State → Prop} [∀ s, Decidable (c s)] {f f' : State → State} {s : State}
    (hc : ∀ g, c (withGhost s g) ↔ c s) (hf : c s → RecordsAtMostOne f s) (hf' : ¬ c s → RecordsAtMostOne f' s) :
    RecordsAtMostOne (fun s => if c s then f s else f' s) s := by
  by_cases h : c s
  · exact (hf h).congr fun g => if_pos ((hc g).mpr h)
  · exact (hf' h).congr fun g => if_neg (mt (hc g).mp h)

/-- Recording is what adds an event. -/
theorem recordGhost_records (e : GhostEvent) (s : State) : RecordsAtMostOne (recordGhost · e) s :=
  ⟨[(s.tickCount, e)], .inr ⟨e, rfl⟩, fun _ => rfl⟩

theorem abort_records (r : AbortReason) (s : State) : RecordsAtMostOne (abort · r) s :=
  (recordGhost_records (.aborted r) _).after (fun _ => rfl) rfl

theorem syncTest_records (s : State) : RecordsAtMostOne syncTest s :=
  .ite (fun _ => Iff.rfl) (fun _ => (recordGhost_records .sync _).after (fun _ => rfl) rfl)
    (fun _ => GhostBlind.records fun _ => rfl)

theorem verify_records (s : State) : RecordsAtMostOne verify s :=
  .ite (fun _ => Iff.rfl) (fun _ => (recordGhost_records .good _).after (fun _ => rfl) rfl)
    (fun _ => abort_records .badCrc s)

theorem writeRxb_blind (index : Nat) (v : Byte) (s : State) : GhostBlind (writeRxb · index v) s :=
  .ite (fun _ => Iff.rfl) (fun _ => rfl) (fun _ => rfl)

theorem store_blind (v : Byte) (s : State) : GhostBlind (store · v) s := fun g =>
  congrArg (fun t : State => { t with rxBufLen := s.rxBufLen + 1 }) (writeRxb_blind s.rxBufLen v s g)

theorem append_records (v : Byte) (s : State) : RecordsAtMostOne (append · v) s :=
  .ite (fun _ => Iff.rfl) (fun _ => (verify_records _).after (store_blind v s) (by simp))
    (fun _ => (store_blind v s).records)

theorem takeByte_records (v : Byte) (s : State) : RecordsAtMostOne (takeByte · v) s :=
  .ite (fun _ => Iff.rfl)
    (fun _ => .ite (fun _ => Iff.rfl)
      (fun _ => (append_records v _).after (b := fun s => { s with rxCount := v.toNat }) (fun _ => rfl) rfl)
      (fun _ => abort_records .badLength s))
    (fun _ => append_records v s)

theorem byteStep_records (s : State) : RecordsAtMostOne byteStep s := by
  by_cases hlast : s.rxBitCount = 11
  · cases hv : decodePair s.rxWindow with
    | none =>
      exact ((abort_records .invalidSymbol _).after (b := fun s => { s with rxBitCount := 0 }) (fun _ => rfl) rfl).congr
        fun g => byteStep_of_invalid (s := withGhost s g) hlast hv
    | some v =>
      exact ((takeByte_records v _).after (b := fun s => { s with rxBitCount := 0 }) (fun _ => rfl) rfl).congr
        fun g => byteStep_of_byte (s := withGhost s g) hlast hv
  · exact (GhostBlind.records (f := fun s => { s with rxBitCount := s.rxBitCount + 1 }) fun _ => rfl).congr
      fun g => byteStep_of_within (s := withGhost s g) hlast

theorem frameStep_records (s : State) : RecordsAtMostOne frameStep s :=
  .ite (fun _ => Iff.rfl) (fun _ => byteStep_records s)
    (fun _ => .ite (fun _ => Iff.rfl) (fun _ => GhostBlind.records fun _ => rfl) (fun _ => syncTest_records s))

theorem pllStep_records (level : Bool) (s : State) : RecordsAtMostOne (pllStep level) s :=
  .ite (fun _ => Iff.rfl)
    (fun _ => (frameStep_records (bitOut s level)).after (fun _ => rfl) (bitOut_tickCount s level))
    (fun _ => GhostBlind.records fun _ => rfl)

theorem busyEvent_ghostBlind (level : Bool) (s : State) : GhostBlind (busyEvent level) s :=
  .ite (fun _ => Iff.rfl) (fun _ => rfl) (fun _ => rfl)

theorem cadExit_ghostBlind (s : State) : GhostBlind cadExit s :=
  .ite (fun _ => Iff.rfl) (.ite (fun _ => Iff.rfl) (fun _ => rfl) (fun _ => rfl)) (fun _ => rfl)

theorem rxTick_records (level : Bool) (s : State) : RecordsAtMostOne (rxTick level) s :=
  ((pllStep_records level s).andThen (busyEvent_ghostBlind level)).andThen cadExit_ghostBlind

/-- A tick in Rx or Cad counts first, so its event has the new count (rule R241). -/
theorem tick_listening_records {s : State} (hl : listening s.mode = true) :
    ∃ l, AtMostOneEvent (s.tickCount + 1) l ∧
      ∀ g, exec .tick (withGhost s g) = .next (withGhost (tickAnswered s) (g ++ l)) := by
  obtain ⟨l, hone, h⟩ := rxTick_records (rxIn s) (consumeRx (countTick s))
  refine ⟨l, hone, fun g => ?_⟩
  have htick : tick (withGhost s g) = withGhost (tick s) (g ++ l) := by
    rw [tick_of_listening hl, ← h g]
    exact tick_of_listening (s := withGhost s g) hl
  rw [exec_tick, tickAnswered, htick]
  rfl

/-- What any operation adds to the ghost events, and that it does not read what stands there. -/
theorem exec_records {i : Instr} {s t : State} (hexec : exec i s = .next t) :
    ∃ l, (l = [] ∨ (i = .tick ∧ listening s.mode = true ∧ ∃ e, l = [(s.tickCount + 1, e)])) ∧
      ∀ g, exec i (withGhost s g) = .next (withGhost t (g ++ l)) := by
  by_cases htick : i = .tick ∧ listening s.mode = true
  · obtain ⟨rfl, hl⟩ := htick
    cases hexec
    obtain ⟨l, hone, h⟩ := tick_listening_records hl
    exact ⟨l, hone.imp_right fun he => ⟨rfl, hl, he⟩, h⟩
  · obtain ⟨u, status, data, out, h⟩ := exec_ignoresEnv htick
    cases (h s.env).symm.trans hexec
    exact ⟨[], .inl rfl, fun g => by rw [List.append_nil]; exact h { s.env with ghost := g }⟩

/-- Settles O53: `exec_records` at the list that stands in `s`, and at any other. -/
theorem ghostEventsAreNotState : Obligations.GhostEventsAreNotState := by
  intro i s t hexec
  obtain ⟨l, hl, h⟩ := exec_records hexec
  have hown : t = withGhost t (s.env.ghost ++ l) := Host.Outcome.next.inj (hexec.symm.trans (h s.env.ghost))
  have hghost : t.env.ghost = s.env.ghost ++ l := congrArg (·.env.ghost) hown
  refine ⟨?_, fun g => ⟨g ++ l, h g⟩⟩
  rcases hl with rfl | ⟨hi, hm, e, rfl⟩
  · exact .inl (by rw [hghost, List.append_nil])
  · exact .inr ⟨hi, listening_iff.mp hm, e, hghost⟩

/-! ### What is refused (rules R10, R11, R292) -/

/-- Construction is refused exactly for an input without a meaning or an illegal parameter. -/
theorem construct_refused_iff (args : ResetArgs) : (∃ r, construct args = .refused r) ↔
    args.rxGain ≠ none ∨ args.seed ≠ none ∨ ¬ Config.Legal args.tpb args.cadTimeout := by
  by_cases hinput : args.rxGain ≠ none ∨ args.seed ≠ none
  · exact iff_of_true ⟨_, if_pos hinput⟩ (hinput.imp_right .inl)
  by_cases hlegal : Config.Legal args.tpb args.cadTimeout
  · have hnext : construct args = .next (resetWith args) := by rw [construct, if_neg hinput, if_pos hlegal]
    exact iff_of_false (by simp [hnext]) (by tauto)
  · exact iff_of_true ⟨_, by rw [construct, if_neg hinput, if_neg hlegal]⟩ (.inr (.inr hlegal))

/-- An Illegal word is answered with status Illegal, at the boundary alone (rule R89). -/
theorem step_of_illegal {s : State} {why : IllegalWord} {after : List Byte}
    (h : decode s.env.pending = .illegal why after) : step s = .next (answerIllegal (setPending s after)) := by
  rw [step, h]

/-- Settles O54: each part is the lemma that says how its operation answers. -/
theorem everyOperationAnswersInEveryState : Obligations.EveryOperationAnswersInEveryState := by
  refine ⟨fun i s => ?answers, fun m s h => ?setMode, fun s hrx hcad => ?startCad,
    fun s why after h => ⟨_, step_of_illegal h, rfl, rfl⟩, construct_refused_iff⟩
  case answers =>
    obtain ⟨u, status, data, out, hexec, -⟩ := exec_answers i s
    exact ⟨_, hexec⟩
  case setMode =>
    obtain ⟨-, -, -, -, -, hrefused⟩ := setModeOfEveryPair m s
    exact hrefused (by tauto)
  case startCad =>
    obtain ⟨-, hstart⟩ := startCadOfEveryMode
    obtain ⟨-, -, hrefused⟩ := hstart s
    exact hrefused hcad hrx

end Sys2Proof.Machine
end

section
/-! PROOFS of the family 70_reset_and_hazards: a step waits for a whole transaction, and what construction refuses
and sets. -/

namespace Sys2Proof

/-! ### More bytes never change what has been decoded (rules R80, R85) -/

theorem decode_append_of_instr {bytes rest : List Byte} {i : Instr} (h : decode bytes = .instr i rest)
    (more : List Byte) : decode (bytes ++ more) = .instr i (rest ++ more) := by
  obtain ⟨hwf, rfl⟩ := decodedBytesAreTheEncoding bytes rest i h
  rw [List.append_assoc, decode_encode_append hwf]

theorem decode_append_of_illegal {bytes rest : List Byte} {why : IllegalWord} (h : decode bytes = .illegal why rest)
    (more : List Byte) : decode (bytes ++ more) = .illegal why (rest ++ more) := by
  cases bytes with
  | nil => cases h
  | cons c operands =>
    obtain ⟨hwhy, rfl⟩ := (decode_cons_eq_illegal_iff c operands why rest).mp h
    exact (decode_cons_eq_illegal_iff c _ why _).mpr ⟨hwhy, rfl⟩

/-- Pending bytes that decoded would decode alike with the missing bytes, which the whole transaction takes too. -/
theorem decode_eq_incomplete_of_missing {bytes missing : List Byte} {i : Instr} (hwf : i.wellFormed = true)
    (hmissing : missing ≠ []) (h : bytes ++ missing = encode i) : decode bytes = .incomplete := by
  have hwhole : decode (bytes ++ missing) = .instr i [] := by
    rw [h, ← List.append_nil (encode i), decode_encode_append hwf]
  cases hdecode : decode bytes with
  | instr j rest =>
    have hrest := (decode_append_of_instr hdecode missing).symm.trans hwhole
    exact absurd (List.append_eq_nil_iff.mp (Decoded.instr.inj hrest).2).2 hmissing
  | illegal why rest => cases (decode_append_of_illegal hdecode missing).symm.trans hwhole
  | incomplete => rfl

end Sys2Proof

namespace Sys2Proof.Machine

theorem step_of_incomplete {s : State} (h : decode s.env.pending = .incomplete) : step s = .next s := by
  rw [step, h]

/-- Settles O7: a transaction with bytes missing is incomplete. -/
theorem stepWaitsForAWholeTransaction : Obligations.StepWaitsForAWholeTransaction :=
  fun _ _ _ hwf hmissing hpending => step_of_incomplete (decode_eq_incomplete_of_missing hwf hmissing hpending)

/-! ### Construction (rules R10, R11, R310) -/

theorem construct_of_legal {args : ResetArgs} (hgain : args.rxGain = none) (hseed : args.seed = none)
    (hlegal : Config.Legal args.tpb args.cadTimeout) : construct args = .next (resetWith args) := by
  rw [construct, if_neg (by simp [hgain, hseed]), if_pos hlegal]

/-- Settles O52: what is refused, and the field values of `resetWith`. -/
theorem constructionSetsTheResetValues : Obligations.ConstructionSetsTheResetValues := by
  refine ⟨fun args hinput => ?input, fun args hrange => ?range,
    fun args hgain hseed h2 h16 hlow hhigh =>
      ⟨resetWith args, construct_of_legal hgain hseed ⟨h2, h16, hlow, hhigh⟩, ?fields⟩⟩
  case input => exact (construct_refused_iff args).mpr (hinput.imp_right .inl)
  case range =>
    have hillegal : ¬ Config.Legal args.tpb args.cadTimeout := by rintro ⟨h2, h16, hlow, hhigh⟩; omega
    exact (construct_refused_iff args).mpr (.inr (.inr hillegal))
  case fields => and_intros <;> rfl

end Sys2Proof.Machine
end
